-- ==== Sys2Proof/Word.lean ====
section
/-! DEFINITION. The word types of the spec's notation (00_scope.md R9). -/
namespace Sys2Proof

/-- `u8`: one byte of a frame, of a report or of a serial channel. -/
abbrev Byte := BitVec 8

/-- `u16`: one axis of the report, read as `i16` two's complement (10_state.md R28). -/
abbrev AxisWord := BitVec 16

/-- A selector word, zero-extended to the widest format, HDR_SEL (30_encoding.md R85). -/
abbrev Sel := BitVec 16

end Sys2Proof
end

