-- ==== Sys2Proof/Config.lean ====
section
/-! DEFINITION. The configuration: the parameters 00_scope.md R6 fixes and the named alternatives of
93_implementation_defined.md, and the types whose widths are parameters. The machine's own values are `cfg` of
Machine/Params.lean; the model's one free value, `Config.envInputs`, is declared beside its type, in Ports.lean. -/
namespace Sys2Proof

/-- `AXIS_ROUNDING` (93_implementation_defined.md I2). -/
inductive AxisRounding where
  | round | trunc
  deriving DecidableEq, Repr

/-- `AXIS_OOR`: storage of an axis result outside the 16-bit range (93_implementation_defined.md I3). -/
inductive AxisOor where
  | wrap16 | saturate
  deriving DecidableEq, Repr

/-- `BRIDGE_CMP`: the comparison of the bridge timeout (93_implementation_defined.md I9). -/
inductive BridgeCmp where
  | ge | gt
  deriving DecidableEq, Repr

/-- `PAYLOAD_BIT_ORDER` (93_implementation_defined.md I13). -/
inductive PayloadBitOrder where
  | lsbFirst | msbFirst
  deriving DecidableEq, Repr

/-- The parameters of 00_scope.md R6, one field per row in the table's order, then those of 93_implementation_defined.md.
Every rule is written over these names (93_implementation_defined.md I1). -/
structure Config where
  /-- `P_DEV_ADDR` -/
  devAddr : Byte
  /-- `P_FRAME_TYPE` -/
  frameType : Byte
  /-- `P_PAYLOAD_OFF` -/
  payloadOff : Nat
  /-- `P_PAYLOAD_LEN` -/
  payloadLen : Nat
  /-- `P_NCH` -/
  nCh : Nat
  /-- `P_CH_BITS` -/
  chBits : Nat
  /-- `P_NAXES` -/
  nAxes : Nat
  /-- `P_NSW` -/
  nSw : Nat
  /-- `P_AX_IN_MIN` -/
  axInMin : Nat
  /-- `P_AX_IN_MAX` -/
  axInMax : Nat
  /-- `P_AX_OUT_MAX` -/
  axOutMax : Nat
  /-- `P_SW_THRESH` -/
  swThresh : Nat
  /-- `P_GAP_US` -/
  gapUs : Nat
  /-- `P_BRIDGE_IDLE_MS` -/
  bridgeIdleMs : Nat
  /-- `P_REPORT_ID` -/
  reportId : Byte
  /-- `P_REPORT_LEN` -/
  reportLen : Nat
  /-- `P_BUF_CAP` -/
  bufCap : Nat
  /-- `P_TIME_BITS` -/
  timeBits : Nat
  /-- `AXIS_ROUNDING` (I2) -/
  axisRounding : AxisRounding
  /-- `AXIS_OOR` (I3) -/
  axisOor : AxisOor
  /-- `BRIDGE_CMP` (I9) -/
  bridgeCmp : BridgeCmp
  /-- `PAYLOAD_BIT_ORDER` (I13) -/
  payloadBitOrder : PayloadBitOrder
  /-- `SW_BIT(i)`: the report bit of switch i (I11) -/
  swBit : Vector Nat nSw
  /-- the axes are the first `P_NAXES` channels and the switches are the rest (00_scope.md R6, 42_decoder.md R141) -/
  split : nAxes + nSw = nCh
  deriving DecidableEq, Repr

/-! The types whose widths are parameters -/

/-- A time input or a stored timestamp: `P_TIME_BITS` bits, wrapping (00_scope.md R6, 92_eei_decisions.md D2). -/
abbrev Config.TimeWord (c : Config) : Type := BitVec c.timeBits

/-- A channel value: `P_CH_BITS` bits (30_encoding.md R74). -/
abbrev Config.ChannelWord (c : Config) : Type := BitVec c.chBits

/-- The channel vector: `P_NCH` channels (10_state.md R30). -/
abbrev Config.ChannelVector (c : Config) : Type := Vector c.ChannelWord c.nCh

/-- The auxiliary channels, which drive the switches: `P_NSW` channels (42_decoder.md R141). -/
abbrev Config.AuxVector (c : Config) : Type := Vector c.ChannelWord c.nSw

/-- The payload of an RC-channels frame: `P_PAYLOAD_LEN` bytes (30_encoding.md R72). -/
abbrev Config.PayloadBytes (c : Config) : Type := Vector Byte c.payloadLen

/-- How many bits a payload has (20_memory.md R55). -/
abbrev Config.payloadBits (c : Config) : Nat := 8 * c.payloadLen

/-- The serialized report: `P_REPORT_LEN` bytes (30_encoding.md R76). -/
abbrev Config.ReportBytes (c : Config) : Type := Vector Byte c.reportLen

end Sys2Proof
end

