-- ==== Sys2Proof/Machine/Params.lean ====
section
/-! DEFINITION. The values ELRSJ-CORE hardwires (00_scope.md R6) and the defaults of 93_implementation_defined.md. -/
namespace Sys2Proof.Machine

/-- The configuration of ELRSJ-CORE: 00_scope.md R6, then I2, I3, I9, I13 and I11 of
93_implementation_defined.md at their defaults (UNVERIFIED against the original firmware: entry 12). -/
@[reducible] def cfg : Config where
  devAddr := 0xC8
  frameType := 0x16
  payloadOff := 3
  payloadLen := 22
  nCh := 16
  chBits := 11
  nAxes := 8
  nSw := 8
  axInMin := 172
  axInMax := 1811
  axOutMax := 32767
  swThresh := 1792
  gapUs := 800
  bridgeIdleMs := 2000
  reportId := 0x00
  reportLen := 17
  bufCap := 67
  timeBits := 32
  axisRounding := .round
  axisOor := .wrap16
  bridgeCmp := .ge
  payloadBitOrder := .lsbFirst
  swBit := #v[0, 1, 2, 3, 4, 5, 6, 7]
  split := rfl

end Sys2Proof.Machine
end

