-- ==== Sys2Proof/Ports.lean ====
section
/-! DEFINITION. The ports of the block (10_state.md R32, R33), the event names of a tick (60_exceptions.md R202), and the
free input vectors. -/
namespace Sys2Proof

/-! The machine's own types, from its configuration (00_scope.md R6) -/

/-- A time input or a stored timestamp: 32 bits, wrapping. -/
abbrev Time : Type := Machine.cfg.TimeWord

/-- A channel value, 0 to 2047. -/
abbrev Channel : Type := Machine.cfg.ChannelWord

/-- The channel vector `ch[0..15]`. -/
abbrev Channels : Type := Machine.cfg.ChannelVector

/-- The 22 payload bytes of an RC-channels frame. -/
abbrev Payload : Type := Machine.cfg.PayloadBytes

/-- The input ports, one value of each per tick (10_state.md R32). -/
structure Inputs where
  /-- `rst`: reset request -/
  rst : Bool
  /-- `now_us`: monotonic microseconds, modulo 2^32 -/
  nowUs : Time
  /-- `now_ms`: monotonic milliseconds, modulo 2^32 -/
  nowMs : Time
  /-- `uart_rx_valid`: a byte from the physical serial port is available -/
  uartRxValid : Bool
  /-- `uart_rx_data`: that byte -/
  uartRxData : Byte
  /-- `uart_tx_ready`: the physical serial transmitter can take a byte this tick -/
  uartTxReady : Bool
  /-- `vser_rx_valid`: a byte from the USB virtual serial channel is available -/
  vserRxValid : Bool
  /-- `vser_rx_data`: that byte -/
  vserRxData : Byte
  /-- `vser_tx_ready`: the USB virtual serial transmitter can take a byte this tick -/
  vserTxReady : Bool
  /-- `hid_ready`: the HID endpoint can take a report this tick -/
  hidReady : Bool
  deriving DecidableEq, Repr, Inhabited

/-- An input vector with every port at 0. -/
def Inputs.zero : Inputs where
  rst := false
  nowUs := 0
  nowMs := 0
  uartRxValid := false
  uartRxData := 0x00
  uartTxReady := false
  vserRxValid := false
  vserRxData := 0x00
  vserTxReady := false
  hidReady := false

/-- The input vector the environment presents in a tick for which no stimulus line is given: a FREE VALUE.
Nothing constrains it, so a claim about such a tick holds for every input vector (DESIGN CHOICE, safe: entry 2). -/
opaque Config.envInputs : Nat → Inputs

/-- The output ports, driven for one tick (10_state.md R33). -/
structure Outputs where
  /-- `uart_rx_pop` -/
  uartRxPop : Bool
  /-- `vser_rx_pop` -/
  vserRxPop : Bool
  /-- `uart_tx_valid` -/
  uartTxValid : Bool
  /-- `uart_tx_data` -/
  uartTxData : Byte
  /-- `vser_tx_valid` -/
  vserTxValid : Bool
  /-- `vser_tx_data` -/
  vserTxData : Byte
  /-- `hid_send` -/
  hidSend : Bool
  /-- `hid_report_id` -/
  hidReportId : Byte
  /-- `hid_report[0..16]` -/
  hidReport : Machine.cfg.ReportBytes
  deriving DecidableEq, Repr

/-- The defaults every tick starts from: strobes 0, data 0x00 (40_tick.md R104). -/
def Outputs.defaults : Outputs where
  uartRxPop := false
  vserRxPop := false
  uartTxValid := false
  uartTxData := 0x00
  vserTxValid := false
  vserTxData := 0x00
  hidSend := false
  hidReportId := 0x00
  hidReport := Vector.replicate Machine.cfg.reportLen 0x00

/-- The event names of the trace (60_exceptions.md R202). Names only: labels of the model, no port outputs them. -/
inductive Event where
  | reset | arbEnter | brU2s | brS2u | brHold | arbExit
  | rxGapReset | rxComplete | rxOverflow
  | decAcceptRc | decIgnore | dispSend | dispDrop
  deriving DecidableEq, Repr

/-- The four error classes the source lists (60_exceptions.md R201). -/
inductive Cause where
  | desync | overflow | unrecognized | endpointBusy
  deriving DecidableEq, Repr

end Sys2Proof
end

