-- ==== Sys2Proof/Syntax.lean ====
section
/-! DEFINITION. The operations of ELRSJ-CORE (30_encoding.md R87), the selector formats that pick them
(R79 to R86), and the stimulus script (R90, R91), which plays the part of a program. -/
namespace Sys2Proof

/-- The selector formats, one per stage of a tick (30_encoding.md R79 to R86). -/
inductive Format where
  /-- RST_SEL, stage R -/
  | rst
  /-- ARB_SEL, stage A -/
  | arb
  /-- BR_SEL, stage B -/
  | br
  /-- RXG_SEL, stage C -/
  | rxg
  /-- RXB_SEL, stage D -/
  | rxb
  /-- RXP_SEL, stage E -/
  | rxp
  /-- HDR_SEL, stage F -/
  | hdr
  /-- DSP_SEL, stage G -/
  | dsp
  deriving DecidableEq, Repr

/-- The operations, one constructor per row of opcode_table.json, in its order (30_encoding.md R87).
An operand is a bit, or a field, of the stage's selector word that the row leaves free
(DESIGN CHOICE, safe: entry 10); no rule makes an effect depend on one. -/
inductive Instr where
  /-- RESET (70_reset_and_hazards.md R230) -/
  | reset
  /-- ARB_IDLE_RC (44_arbiter.md R181) -/
  | arbIdleRc
  /-- ARB_ENTER (44_arbiter.md R182) -/
  | arbEnter
  /-- ARB_BRIDGE (44_arbiter.md R183), whatever VRX is -/
  | arbBridge (vrx : Bool)
  /-- BR_U2S (44_arbiter.md R184), whatever S2U_GO and BTO are -/
  | brU2s (s2uGo bto : Bool)
  /-- BR_S2U (44_arbiter.md R185), whatever U2S_GO and BTO are -/
  | brS2u (u2sGo bto : Bool)
  /-- BR_HOLD (44_arbiter.md R186) -/
  | brHold
  /-- ARB_EXIT (44_arbiter.md R187) -/
  | arbExit
  /-- RX_GAP_RESET (41_receiver.md R120) -/
  | rxGapReset
  /-- RX_NOP (41_receiver.md R121) -/
  | rxNop
  /-- RX_APPEND (41_receiver.md R122) -/
  | rxAppend
  /-- RX_COMPLETE (41_receiver.md R124), whatever FULL is -/
  | rxComplete (full : Bool)
  /-- RX_OVERFLOW (41_receiver.md R125) -/
  | rxOverflow
  /-- RX_CONTINUE (41_receiver.md R126) -/
  | rxContinue
  /-- DEC_ACCEPT_RC (42_decoder.md R141) -/
  | decAcceptRc
  /-- DEC_IGNORE (42_decoder.md R142): the default row, for every ADDR, TYPE but 0xC8, 0x16 -/
  | decIgnore (addr typ : Byte)
  /-- DISP_IDLE (43_dispatcher.md R170), whatever HIDR is -/
  | dispIdle (hidr : Bool)
  /-- DISP_SEND (43_dispatcher.md R171) -/
  | dispSend
  /-- DISP_DROP (43_dispatcher.md R172) -/
  | dispDrop
  deriving DecidableEq, Repr

/-- One line of a stimulus script (30_encoding.md R90; its text: entry 17). -/
inductive ScriptLine where
  /-- `rst` -/
  | rst (us ms : Option Time)
  /-- `tick us= ms= [urx=] [vrx=] [stx=] [vtx=] [hid=]` -/
  | tick (us ms : Time) (urx vrx : Option Byte) (stx vtx hid : Option Bool)
  deriving DecidableEq, Repr

/-- A line or a pseudo-line of a script (30_encoding.md R91). -/
inductive PseudoLine where
  /-- a plain line of R90 -/
  | line (l : ScriptLine)
  /-- `frame us= dus= ms= bytes=` -/
  | frame (us dus ms : Time) (bytes : List Byte)
  /-- `idle us= ms=` -/
  | idle (us ms : Time)
  /-- `frame us= dus= ms= bytes=<rcframe ch= crc=>` -/
  | rcframe (us dus ms : Time) (ch : Channels) (crc : Byte)
  /-- `vin us= ms= byte=` -/
  | vin (us ms : Time) (byte : Byte)
  deriving DecidableEq, Repr

end Sys2Proof
end

