-- ==== Sys2Proof/Machine/State.lean ====
section
/-! DEFINITION. The state of the block and the reasons a step can stop. -/
namespace Sys2Proof.Machine

/-- The Bridge Arbiter's state (10_state.md R22). -/
inductive Mode where
  /-- 0: no bridging traffic -/
  | idle
  /-- 1: relaying bytes -/
  | bridging
  deriving DecidableEq, Repr

/-- The HID report record, with `P_NAXES` axes (10_state.md R28). -/
structure ReportRecord (c : Config) where
  /-- `axis[0..7]`, each read as `i16` two's complement -/
  axis : Vector AxisWord c.nAxes
  /-- `sw`: bit i is switch i -/
  sw : Byte
  deriving DecidableEq, Repr

/-- The machine's own report record (00_scope.md R6). -/
abbrev Report : Type := ReportRecord cfg

/-- The report RESET leaves (10_state.md R34). -/
def Report.zero : Report where
  axis := Vector.replicate cfg.nAxes 0x0000
  sw := 0x00

/-- Why a tick stops. The spec has no fault (60_exceptions.md R200); the one below is the model's. -/
inductive Fault where
  /-- Raised by RX_APPEND's buffer write at an index that does not exist, `P_BUF_CAP` or above (20_memory.md R51).
  Safe: no run reaches a state with such a `pos` (10_state.md R35 item 1; entry 8). -/
  | bufferIndex
  deriving DecidableEq, Repr

/-- Why an operation is refused. -/
inductive Refusal where
  /-- Raised by `exec` for an operation without a meaning, by its mnemonic. Safe; no arm raises it. -/
  | notModelled (mnemonic : String)
  deriving DecidableEq, Repr

/-- The block's eight state elements (10_state.md R22 to R29), the ports of the last tick, its observations, and the
stimulus still to be played. -/
structure State where
  /-- `mode` (R22) -/
  mode : Mode
  /-- `br_last_ms` (R23) -/
  brLastMs : Time
  /-- `buf[0 .. P_BUF_CAP−1]` (R24): the bytes that are not 0x00, addresses strictly rising (entry 9) -/
  buf : List Host.Cell
  /-- `pos` (R25) -/
  pos : Nat
  /-- `decl_len` (R26) -/
  declLen : Byte
  /-- `last_rx_us` (R27) -/
  lastRxUs : Time
  /-- `report` (R28) -/
  report : Report
  /-- `ready` (R29) -/
  ready : Bool
  /-- the input ports as sampled for the last tick (R32; entry 19) -/
  inp : Inputs
  /-- the output ports as driven in the last tick (R33) -/
  out : Outputs
  /-- the event trace of the last tick (60_exceptions.md R202) -/
  trace : List Event
  /-- MODEL's own: the operations the last tick performed, in order (entry 15) -/
  fired : List Instr
  /-- the stimulus script still to be played, one input vector per tick (30_encoding.md R90; entries 1, 3) -/
  script : List Inputs
  /-- MODEL's own: ticks so far, the argument of the free inputs (entry 2) -/
  tickNo : Nat
  deriving DecidableEq, Repr

/-- The machine right after reset (10_state.md R34), as if one RESET tick had run (70_reset_and_hazards.md R231). The
model's own fields: nothing sampled, nothing observed, no script (DESIGN CHOICE: entry 5). -/
def State.reset : State where
  mode := .idle
  brLastMs := 0
  buf := []
  pos := 0
  declLen := 0x00
  lastRxUs := 0
  report := Report.zero
  ready := false
  inp := Inputs.zero
  out := Outputs.defaults
  trace := []
  fired := []
  script := []
  tickNo := 0

end Sys2Proof.Machine
end

