-- ==== Sys2Proof/Machine/Ops.lean ====
section
/-! DEFINITION. The named operations over the frame buffer, the state elements, the ports and the trace
(00_scope.md R10). There is no exception entry and no return from one to model (60_exceptions.md R200, R205). -/
namespace Sys2Proof.Machine

/-! Notation of 00_scope.md R9 -/

/-- `elapsed32(now, then) = (now − then) mod 2^32` (00_scope.md R9, 70_reset_and_hazards.md R236). -/
def elapsed32 (now before : Time) : Nat := (now - before).toNat

/-- `floor_div(a, b)` for `b > 0`: rounds toward minus infinity (00_scope.md R9). -/
def floorDiv (a b : Int) : Int := a / b

/-- `trunc_16(v)`: the low 16 bits (00_scope.md R9). -/
def trunc16 (v : Int) : AxisWord := BitVec.ofInt 16 v

/-! The frame buffer (20_memory.md R51) -/

/-- What a byte of the frame buffer that is not listed reads as: the reset contents (10_state.md R34, entry 9). -/
def Memory.default : Byte := 0x00

/-- `MemRead(i, 1)` (00_scope.md R10). -/
def Memory.read : List Host.Cell → Nat → Byte
  | [], _ => Memory.default
  | (a, c) :: m, i => if a = i then c else Memory.read m i

/-- `MemWrite(i, 1, b)`, keeping the canonical form (00_scope.md R10, entry 9). -/
def Memory.write : List Host.Cell → Nat → Byte → List Host.Cell
  | [], i, b => if b = Memory.default then [] else [(i, b)]
  | (a, c) :: m, i, b =>
    if i < a then (if b = Memory.default then (a, c) :: m else (i, b) :: (a, c) :: m)
    else if i = a then (if b = Memory.default then m else (i, b) :: m)
    else (a, c) :: Memory.write m i b

/-- Every listed address is at or above `lo`, addresses rise strictly, and no listed byte is what an unlisted one
reads as. -/
def Memory.wfFrom (lo : Nat) : List Host.Cell → Bool
  | [] => true
  | (a, c) :: m => decide (lo ≤ a) && !(c == Memory.default) && Memory.wfFrom (a + 1) m

/-- The canonical form: equal contents are equal lists. -/
def Memory.wf (m : List Host.Cell) : Bool := Memory.wfFrom 0 m

/-- Every listed address is below `n`: the frame buffer holds indices 0 to `P_BUF_CAP − 1` only (20_memory.md R51). -/
def Memory.inSpace (n : Nat) (m : List Host.Cell) : Bool := m.all fun x => decide (x.1 < n)

/-! Named updates of the state: `name <- v`, `out.p <- v`, `event NAME` (00_scope.md R10) -/

def State.setMode (s : State) (v : Mode) : State := { s with mode := v }
def State.setBrLastMs (s : State) (v : Time) : State := { s with brLastMs := v }
def State.setBuf (s : State) (v : List Host.Cell) : State := { s with buf := v }
def State.setPos (s : State) (v : Nat) : State := { s with pos := v }
def State.setDeclLen (s : State) (v : Byte) : State := { s with declLen := v }
def State.setLastRxUs (s : State) (v : Time) : State := { s with lastRxUs := v }
def State.setReport (s : State) (v : Report) : State := { s with report := v }
def State.setReady (s : State) (v : Bool) : State := { s with ready := v }
def State.setOut (s : State) (v : Outputs) : State := { s with out := v }
def State.setScript (s : State) (v : List Inputs) : State := { s with script := v }

/-- `event NAME`: append to the tick's trace (60_exceptions.md R202). -/
def State.event (s : State) (e : Event) : State := { s with trace := s.trace ++ [e] }

/-- Note an operation the tick performs (the model's own field, entry 15). -/
def State.noteOp (s : State) (i : Instr) : State := { s with fired := s.fired ++ [i] }

/-- `buf[i]` (20_memory.md R51). -/
def State.bufRead (s : State) (i : Nat) : Byte := Memory.read s.buf i

/-- `buf[i] <- b` (20_memory.md R51); an index outside the buffer does not exist (entry 8). -/
def State.bufWrite (s : State) (i : Nat) (b : Byte) : Host.Outcome State Fault Refusal :=
  if i < cfg.bufCap then .next (s.setBuf (Memory.write s.buf i b)) else .fault .bufferIndex

/-- The input vector the next tick samples: the head of the script, or, past its end, a free one (40_tick.md R105,
entries 1 and 2). -/
def State.nextInputs (s : State) : Inputs := s.script.headD (Config.envInputs s.tickNo)

/-- Start a tick (40_tick.md R103 to R105): sample the inputs; set every output to its default; empty the trace. -/
def State.beginTick (s : State) : State :=
  { s with
    inp := s.nextInputs
    script := s.script.tail
    tickNo := s.tickNo + 1
    out := Outputs.defaults
    trace := []
    fired := [] }

/-- Every one of the eight state elements to its reset value (10_state.md R34); the rest is no state of the block. -/
def State.resetElements (s : State) : State :=
  { s with
    mode := State.reset.mode
    brLastMs := State.reset.brLastMs
    buf := State.reset.buf
    pos := State.reset.pos
    declLen := State.reset.declLen
    lastRxUs := State.reset.lastRxUs
    report := State.reset.report
    ready := State.reset.ready }

/-- Go on with `f` from the next state; a fault or a refusal ends the tick. -/
def andThen (o : Host.Outcome State Fault Refusal) (f : State → Host.Outcome State Fault Refusal) :
    Host.Outcome State Fault Refusal :=
  match o with
  | .next s => f s
  | .fault r => .fault r
  | .refused r => .refused r

end Sys2Proof.Machine
end

