-- ==== Sys2Proof/Machine/Operands.lean ====
section
/-! DEFINITION. The pure functions of the Frame Decoder and the Report Dispatcher: UNPACK, PACK, AXIS_MAP, SWITCH_MAP
and REPORT_BYTES (42_decoder.md R143 to R146, 30_encoding.md R74, R76, R91). -/
namespace Sys2Proof.Machine

/-- `Σ q[k] · 2^(8k)`: the first byte is least significant (20_memory.md R55). -/
def leNat : List Byte → Nat
  | [] => 0
  | b :: q => b.toNat + 2 ^ 8 * leNat q

/-- The payload number `P`, 176 bits (20_memory.md R55). -/
def payloadNumber (c : Config) (q : c.PayloadBytes) : BitVec c.payloadBits := BitVec.ofNat c.payloadBits (leNat q.toList)

/-- The payload with its first byte most significant: the MSB-first reading that is set aside
(93_implementation_defined.md I13, 92_eei_decisions.md D28; entry 11). -/
def payloadNumberMsb (c : Config) (q : c.PayloadBytes) : BitVec c.payloadBits :=
  BitVec.ofNat c.payloadBits (leNat q.toList.reverse)

/-- Channel field `i`: `P[11i+10 : 11i]` (30_encoding.md R74); under `msb_first`, the `P_CH_BITS` bits from bit `11i` of
the stream counted from bit 7 of byte 0 (entry 11). -/
def channel (c : Config) (q : c.PayloadBytes) (i : Nat) : c.ChannelWord :=
  match c.payloadBitOrder with
  | .lsbFirst => (payloadNumber c q).extractLsb' (c.chBits * i) c.chBits
  | .msbFirst => (payloadNumberMsb c q).extractLsb' (c.payloadBits - c.chBits * (i + 1)) c.chBits

/-- UNPACK (42_decoder.md R143). -/
def unpack (c : Config) (q : c.PayloadBytes) : c.ChannelVector := Vector.ofFn fun i : Fin c.nCh => channel c q i.val

/-- `Σ c_i · 2^(11 i)` (30_encoding.md R91). -/
def channelsNat {bits : Nat} : List (BitVec bits) → Nat
  | [] => 0
  | x :: xs => x.toNat + 2 ^ bits * channelsNat xs

/-- PACK: `p_k = P[8k+7 : 8k]` (30_encoding.md R91). -/
def pack (c : Config) (ch : c.ChannelVector) : c.PayloadBytes :=
  Vector.ofFn fun k : Fin c.payloadLen => (BitVec.ofNat c.payloadBits (channelsNat ch.toList)).extractLsb' (8 * k.val) 8

/-- `N = (r − P_AX_IN_MIN) · 2·P_AX_OUT_MAX` (42_decoder.md R144). -/
def axisNum (c : Config) (r : Nat) : Int := ((r : Int) - c.axInMin) * (2 * c.axOutMax)

/-- `D = P_AX_IN_MAX − P_AX_IN_MIN` (42_decoder.md R144). -/
def axisDen (c : Config) : Int := (c.axInMax : Int) - c.axInMin

/-- The mapped value `m`, an exact integer (42_decoder.md R144; `trunc`: 93_implementation_defined.md I2). -/
def axisValue (c : Config) (r : Nat) : Int :=
  match c.axisRounding with
  | .round => floorDiv (2 * axisNum c r + axisDen c) (2 * axisDen c) - c.axOutMax
  | .trunc => Int.tdiv (axisNum c r) (axisDen c) - c.axOutMax

/-- Storage of `m` in 16 bits: the low bits (42_decoder.md R144 item 4), or, under `saturate`, the nearest value of the
output range (93_implementation_defined.md I3). -/
def axisStore (c : Config) (m : Int) : AxisWord :=
  match c.axisOor with
  | .wrap16 => trunc16 m
  | .saturate => trunc16 (max (-(c.axOutMax : Int)) (min c.axOutMax m))

/-- AXIS_MAP (42_decoder.md R144). -/
def axisMap (c : Config) (r : c.ChannelWord) : AxisWord := axisStore c (axisValue c r.toNat)

/-- The switch law: on iff the raw value is at or above the threshold (42_decoder.md R145). -/
def switchOn (c : Config) (r : c.ChannelWord) : Bool := decide (c.swThresh ≤ r.toNat)

/-- SWITCH_MAP: bit `SW_BIT(i)` is switch `i` (42_decoder.md R145, 93_implementation_defined.md I11). -/
def switchMap (c : Config) (a : c.AuxVector) : Byte :=
  BitVec.ofNat 8 (List.ofFn fun i : Fin c.nSw => (switchOn c a[i]).toNat * 2 ^ c.swBit[i]).sum

/-- The auxiliary channels, those after the first `P_NAXES`: `ch[8..15]` (42_decoder.md R141). -/
def auxChannels (c : Config) (ch : c.ChannelVector) : c.AuxVector :=
  Vector.ofFn fun i : Fin c.nSw => ch[c.nAxes + i.val]'(by have := c.split; omega)

/-- The report of a channel vector: axis k from channel k, switch i from channel 8+i (42_decoder.md R141, R146). -/
def reportOf (c : Config) (ch : c.ChannelVector) : ReportRecord c where
  axis := Vector.ofFn fun k : Fin c.nAxes => axisMap c (ch[k.val]'(by have := c.split; omega))
  sw := switchMap c (auxChannels c ch)

/-- REPORT_BYTES: axis k low byte at 2k, high byte at 2k+1, then `sw` (30_encoding.md R76). -/
def reportBytes (c : Config) (r : ReportRecord c) : c.ReportBytes :=
  Vector.ofFn fun j : Fin c.reportLen =>
    if h : j.val / 2 < c.nAxes then r.axis[j.val / 2].extractLsb' (8 * (j.val % 2)) 8 else r.sw

/-- The payload the decoder reads: `P_PAYLOAD_LEN` bytes from `buf[P_PAYLOAD_OFF]`, whatever the declared length
(30_encoding.md R73). -/
def State.payload (s : State) : Payload :=
  Vector.ofFn fun k : Fin cfg.payloadLen => s.bufRead (cfg.payloadOff + k.val)

end Sys2Proof.Machine
end

