-- ==== Sys2Proof/Machine/Script.lean ====
section
/-! DEFINITION. Stimulus scripts: what each line presents, and the expansion of pseudo-lines (30_encoding.md R90, R91). -/
namespace Sys2Proof.Machine

/-- The data and the valid bit of an optional receive byte (30_encoding.md R90). -/
def rxPort (b : Option Byte) : Bool × Byte := (b.isSome, b.getD 0x00)

/-- The input vector of a script line (30_encoding.md R90). A readiness that is not given is 1; for a `rst` line the
other inputs do not matter, and they are 0 (entry 17). -/
def lineInputs : ScriptLine → Inputs
  | .rst us ms => { Inputs.zero with rst := true, nowUs := us.getD 0, nowMs := ms.getD 0 }
  | .tick us ms urx vrx stx vtx hid =>
    { rst := false
      nowUs := us
      nowMs := ms
      uartRxValid := (rxPort urx).1
      uartRxData := (rxPort urx).2
      uartTxReady := stx.getD true
      vserRxValid := (rxPort vrx).1
      vserRxData := (rxPort vrx).2
      vserTxReady := vtx.getD true
      hidReady := hid.getD true }

/-- `tick us= ms= urx=` with every readiness at its default. -/
def urxLine (us ms : Time) (b : Byte) : ScriptLine := .tick us ms (some b) none none none none

/-- `frame us=U dus=D ms=M bytes=…`: byte k at `us = U + k·D` (30_encoding.md R91), modulo 2^32 like every time of a line
(DEDUCED: entry 17). -/
def frameLines : Time → Time → Time → List Byte → List ScriptLine
  | _, _, _, [] => []
  | us, dus, ms, b :: bs => urxLine us ms b :: frameLines (us + dus) dus ms bs

/-- The byte list of `rcframe`: `C8 18 16 p0 .. p21 HH` with `p` = PACK(ch); the length byte counts type,
payload and CRC (30_encoding.md R91, R71, R72). -/
def rcframeBytes (ch : Channels) (crc : Byte) : List Byte :=
  cfg.devAddr :: BitVec.ofNat 8 (cfg.payloadLen + 2) :: cfg.frameType :: (pack cfg ch).toList ++ [crc]

/-- The plain lines a line or pseudo-line stands for (30_encoding.md R91). -/
def expandLine : PseudoLine → List ScriptLine
  | .line l => [l]
  | .frame us dus ms bytes => frameLines us dus ms bytes
  | .idle us ms => [.tick us ms none none none none none]
  | .rcframe us dus ms ch crc => frameLines us dus ms (rcframeBytes ch crc)
  | .vin us ms byte => [.tick us ms none (some byte) none none none]

/-- The input vectors of a script, one per tick (30_encoding.md R90, R91). -/
def scriptInputs (ls : List PseudoLine) : List Inputs :=
  (ls.flatMap expandLine).map lineInputs

/-- Put a script before whatever is still to be played. -/
def State.load (s : State) (ls : List PseudoLine) : State := s.setScript (scriptInputs ls ++ s.script)

end Sys2Proof.Machine
end

