-- ==== Sys2Proof/Machine/Arrange.lean ====
section
/-! DEFINITION. What it takes for the very next tick to perform a given operation: its selection, by the state elements
and the input vector the operation's rule names (entry 20). -/
namespace Sys2Proof.Machine

/-- An input vector at which neither timer has run: no byte, every sink ready. -/
def State.calm (s : State) : Inputs :=
  lineInputs (.tick s.lastRxUs s.brLastMs none none none none none)

/-- Play the input vector next. -/
def State.feed (s : State) (i : Inputs) : State := s.setScript (i :: s.script)

/-- `now_ms` at which BTO is as asked (30_encoding.md R81). -/
def State.bridgeTime (s : State) (bto : Bool) : Time :=
  if bto then s.brLastMs + BitVec.ofNat cfg.timeBits cfg.bridgeIdleMs else s.brLastMs

/-- The state with bytes 0 and 2 of the buffer a header, one byte before a two-byte frame completes. -/
def State.headerReady (s : State) (addr typ : Byte) : State :=
  ((s.setMode .idle).setBuf (Memory.write (Memory.write s.buf 0 addr) 2 typ)).setPos 1

/-- The state and its next input vector, such that the next tick performs the operation. -/
def State.arrange (s : State) : Instr → State
  | .reset => s.feed { s.calm with rst := true }
  | .arbIdleRc => (s.setMode .idle).feed s.calm
  | .arbEnter => (s.setMode .idle).feed { s.calm with vserRxValid := true }
  | .arbBridge vrx => (s.setMode .bridging).feed { s.calm with vserRxValid := vrx }
  | .brU2s s2uGo bto =>
    (s.setMode .bridging).feed { s.calm with vserRxValid := true, uartRxValid := s2uGo, nowMs := s.bridgeTime bto }
  | .brS2u u2sGo bto =>
    (s.setMode .bridging).feed { s.calm with uartRxValid := true, vserRxValid := u2sGo, nowMs := s.bridgeTime bto }
  | .brHold => (s.setMode .bridging).feed s.calm
  | .arbExit => (s.setMode .bridging).feed { s.calm with nowMs := s.bridgeTime true }
  | .rxGapReset =>
    ((s.setMode .idle).setPos (max 1 s.pos)).feed { s.calm with nowUs := s.lastRxUs + BitVec.ofNat cfg.timeBits (cfg.gapUs + 1) }
  | .rxNop => (s.setMode .idle).feed s.calm
  | .rxAppend => ((s.setMode .idle).setPos (min s.pos (cfg.bufCap - 1))).feed { s.calm with uartRxValid := true }
  | .rxComplete full =>
    if full then
      (((s.setMode .idle).setPos (cfg.bufCap - 1)).setDeclLen (BitVec.ofNat 8 (cfg.bufCap - 2))).feed
        { s.calm with uartRxValid := true }
    else ((s.setMode .idle).setPos 1).feed { s.calm with uartRxValid := true }
  | .rxOverflow =>
    (((s.setMode .idle).setPos (cfg.bufCap - 1)).setDeclLen 0xFF).feed { s.calm with uartRxValid := true }
  | .rxContinue => ((s.setMode .idle).setPos 0).feed { s.calm with uartRxValid := true }
  | .decAcceptRc => (s.headerReady cfg.devAddr cfg.frameType).feed { s.calm with uartRxValid := true }
  | .decIgnore addr typ => (s.headerReady addr typ).feed { s.calm with uartRxValid := true }
  | .dispIdle hidr => ((s.setMode .idle).setReady false).feed { s.calm with hidReady := hidr }
  | .dispSend => (s.headerReady cfg.devAddr cfg.frameType).feed { s.calm with uartRxValid := true }
  | .dispDrop => (s.headerReady cfg.devAddr cfg.frameType).feed { s.calm with uartRxValid := true, hidReady := false }

end Sys2Proof.Machine
end

