-- ==== Sys2Proof/Machine/Arbiter.lean ====
section
/-! DEFINITION. Stages A and B, the Bridge Arbiter (44_arbiter.md R181 to R187). -/
namespace Sys2Proof.Machine

/-- ARB_IDLE_RC: no bridge traffic; the RC path follows (44_arbiter.md R181). -/
def execArbIdleRc (s : State) : Host.Outcome State Fault Refusal := .next s

/-- ARB_ENTER: enter bridging and stamp the activity timer (44_arbiter.md R182). -/
def execArbEnter (s : State) : Host.Outcome State Fault Refusal :=
  .next (((s.setMode .bridging).setBrLastMs s.inp.nowMs).event .arbEnter)

/-- ARB_BRIDGE: already bridging; the bridge path follows (44_arbiter.md R183). -/
def execArbBridge (_vrx : Bool) (s : State) : Host.Outcome State Fault Refusal := .next s

/-- Drive the ports of a byte moved from the USB virtual serial port to the UART (44_arbiter.md R184). -/
def State.relayU2s (s : State) : State :=
  s.setOut { s.out with vserRxPop := true, uartTxValid := true, uartTxData := s.inp.vserRxData }

/-- Drive the ports of a byte moved from the UART to the USB virtual serial port (44_arbiter.md R185). -/
def State.relayS2u (s : State) : State :=
  s.setOut { s.out with uartRxPop := true, vserTxValid := true, vserTxData := s.inp.uartRxData }

/-- BR_U2S: relay one byte from USB virtual serial to the UART (44_arbiter.md R184). -/
def execBrU2s (_s2uGo _bto : Bool) (s : State) : Host.Outcome State Fault Refusal :=
  .next ((s.relayU2s.setBrLastMs s.inp.nowMs).event .brU2s)

/-- BR_S2U: relay one byte from the UART to USB virtual serial (44_arbiter.md R185). -/
def execBrS2u (_u2sGo _bto : Bool) (s : State) : Host.Outcome State Fault Refusal :=
  .next ((s.relayS2u.setBrLastMs s.inp.nowMs).event .brS2u)

/-- BR_HOLD: bridging, nothing moved, not idle long enough (44_arbiter.md R186). -/
def execBrHold (s : State) : Host.Outcome State Fault Refusal := .next (s.event .brHold)

/-- ARB_EXIT: the bridge is idle; return to IDLE (44_arbiter.md R187). -/
def execArbExit (s : State) : Host.Outcome State Fault Refusal := .next ((s.setMode .idle).event .arbExit)

end Sys2Proof.Machine
end

