-- ==== Sys2Proof/WellFormed.lean ====
section
/-! DEFINITION. The checks on a configuration and on an operation. -/
namespace Sys2Proof

/-- `26 ≤ P_BUF_CAP` (00_scope.md R7); every report bit index below 8 (93_implementation_defined.md I11); the channels fill
the payload (00_scope.md R6); the report is two bytes an axis and the switch byte (30_encoding.md R76). -/
def Config.wellFormed (c : Config) : Bool :=
  decide (26 ≤ c.bufCap) && c.swBit.toList.all (· < 8) && decide (c.nCh * c.chBits = c.payloadBits) &&
    decide (c.reportLen = 2 * c.nAxes + 1)

/-- An operation its stage can select: DEC_IGNORE is the default row, so its header is not the accepted one
(30_encoding.md R85); every value of every other operand is admitted (R88 item 5). -/
def Instr.wellFormed : Instr → Bool
  | .decIgnore addr typ => !(addr == Machine.cfg.devAddr && typ == Machine.cfg.frameType)
  | .reset | .arbIdleRc | .arbEnter | .arbBridge _ | .brU2s _ _ | .brS2u _ _ | .brHold | .arbExit
  | .rxGapReset | .rxNop | .rxAppend | .rxComplete _ | .rxOverflow | .rxContinue | .decAcceptRc
  | .dispIdle _ | .dispSend | .dispDrop => true

end Sys2Proof
end

