-- ==== Sys2Proof/Decode.lean ====
section
/-! DEFINITION. Selector decoding (30_encoding.md R78 to R87) and its encoder. -/
namespace Sys2Proof

/-- The bit `n` of a selector word as a flag. -/
def selBit (w : Sel) (n : Nat) : Bool := w.getLsbD n

/-- A selector word from its bits, bit 0 first (30_encoding.md R79 to R86). -/
def selOfBits : List Bool → Sel
  | [] => 0
  | b :: bs => BitVec.ofNat 16 b.toNat + 2 * selOfBits bs

/-- The header selector `HDR_SEL = TYPE ++ ADDR` (30_encoding.md R85, 42_decoder.md R140). -/
def hdrWord (addr typ : Byte) : Sel := typ ++ addr

/-- ADDR, bits 7:0 of HDR_SEL. -/
def hdrAddr (w : Sel) : Byte := w.extractLsb' 0 8

/-- TYPE, bits 15:8 of HDR_SEL. -/
def hdrType (w : Sel) : Byte := w.extractLsb' 8 8

/-- The width of a format's selector word in bits (30_encoding.md R79 to R86). -/
def Format.width : Format → Nat
  | .rst => 1
  | .arb => 2
  | .br => 3
  | .rxg => 1
  | .rxb => 1
  | .rxp => 2
  | .hdr => 16
  | .dsp => 2

/-- One row of the opcode map (30_encoding.md R87): it matches a word when the masked word is `mtch`. -/
structure OpRow where
  /-- the mnemonic, as opcode_table.json spells it -/
  mnemonic : String
  /-- the selector format of the row's stage -/
  fmt : Format
  /-- the `match` column -/
  mtch : Sel
  /-- the `mask` column -/
  mask : Sel
  /-- a default row fires only when no other row of its stage matches (R78) -/
  dflt : Bool
  /-- the operation, with the word's free bits as its operands -/
  build : Sel → Instr

/-- The opcode map, rows 1 to 19 (30_encoding.md R87). -/
def opTable : List OpRow :=
  [⟨"RESET", .rst, 0b1, 0b1, false, fun _ => .reset⟩,
   ⟨"ARB_IDLE_RC", .arb, 0b00, 0b11, false, fun _ => .arbIdleRc⟩,
   ⟨"ARB_ENTER", .arb, 0b10, 0b11, false, fun _ => .arbEnter⟩,
   ⟨"ARB_BRIDGE", .arb, 0b01, 0b01, false, fun w => .arbBridge (selBit w 1)⟩,
   ⟨"BR_U2S", .br, 0b001, 0b001, false, fun w => .brU2s (selBit w 1) (selBit w 2)⟩,
   ⟨"BR_S2U", .br, 0b010, 0b010, false, fun w => .brS2u (selBit w 0) (selBit w 2)⟩,
   ⟨"BR_HOLD", .br, 0b000, 0b111, false, fun _ => .brHold⟩,
   ⟨"ARB_EXIT", .br, 0b100, 0b111, false, fun _ => .arbExit⟩,
   ⟨"RX_GAP_RESET", .rxg, 0b1, 0b1, false, fun _ => .rxGapReset⟩,
   ⟨"RX_NOP", .rxb, 0b0, 0b1, false, fun _ => .rxNop⟩,
   ⟨"RX_APPEND", .rxb, 0b1, 0b1, false, fun _ => .rxAppend⟩,
   ⟨"RX_COMPLETE", .rxp, 0b01, 0b01, false, fun w => .rxComplete (selBit w 1)⟩,
   ⟨"RX_OVERFLOW", .rxp, 0b10, 0b11, false, fun _ => .rxOverflow⟩,
   ⟨"RX_CONTINUE", .rxp, 0b00, 0b11, false, fun _ => .rxContinue⟩,
   ⟨"DEC_ACCEPT_RC", .hdr, hdrWord Machine.cfg.devAddr Machine.cfg.frameType, 0xFFFF, false, fun _ => .decAcceptRc⟩,
   ⟨"DEC_IGNORE", .hdr, 0x0000, 0x0000, true, fun w => .decIgnore (hdrAddr w) (hdrType w)⟩,
   ⟨"DISP_IDLE", .dsp, 0b00, 0b01, false, fun w => .dispIdle (selBit w 1)⟩,
   ⟨"DISP_SEND", .dsp, 0b11, 0b11, false, fun _ => .dispSend⟩,
   ⟨"DISP_DROP", .dsp, 0b01, 0b11, false, fun _ => .dispDrop⟩]

/-- A row matches when `(SEL & mask) = match` (30_encoding.md R78). -/
def OpRow.matches (r : OpRow) (w : Sel) : Bool := w &&& r.mask == r.mtch

/-- The operations a stage performs on its selector word: every matching row, in table order; a default row
only when no other row of the stage matches; nothing when no row matches (30_encoding.md R78). -/
def firing (f : Format) (w : Sel) : List Instr :=
  let rows := opTable.filter fun r => r.fmt = f && !r.dflt && r.matches w
  let rows := if rows.isEmpty then opTable.filter fun r => r.fmt = f && r.dflt && r.matches w else rows
  rows.map fun r => r.build w

/-- Why a word is no selector word. -/
inductive DecodeError where
  /-- the word has a 1 above the format's width -/
  | widerThanFormat (f : Format) (w : Nat)
  deriving DecidableEq, Repr

/-- Decoding of a number as a selector word of a format: total, and it rejects a word wider than the format. No
selector value itself is illegal (30_encoding.md R88 item 5). -/
def decode (f : Format) (w : Nat) : Except DecodeError (List Instr) :=
  if w < 2 ^ f.width then .ok (firing f (BitVec.ofNat 16 w)) else .error (.widerThanFormat f w)

/-- The selector word of an operation: its row's match, with its operands in the free bits
(30_encoding.md R79 to R87). -/
def encode : Instr → Format × Sel
  | .reset => (.rst, selOfBits [true])
  | .arbIdleRc => (.arb, selOfBits [false, false])
  | .arbEnter => (.arb, selOfBits [false, true])
  | .arbBridge vrx => (.arb, selOfBits [true, vrx])
  | .brU2s s2uGo bto => (.br, selOfBits [true, s2uGo, bto])
  | .brS2u u2sGo bto => (.br, selOfBits [u2sGo, true, bto])
  | .brHold => (.br, selOfBits [false, false, false])
  | .arbExit => (.br, selOfBits [false, false, true])
  | .rxGapReset => (.rxg, selOfBits [true])
  | .rxNop => (.rxb, selOfBits [false])
  | .rxAppend => (.rxb, selOfBits [true])
  | .rxComplete full => (.rxp, selOfBits [true, full])
  | .rxOverflow => (.rxp, selOfBits [false, true])
  | .rxContinue => (.rxp, selOfBits [false, false])
  | .decAcceptRc => (.hdr, hdrWord Machine.cfg.devAddr Machine.cfg.frameType)
  | .decIgnore addr typ => (.hdr, hdrWord addr typ)
  | .dispIdle hidr => (.dsp, selOfBits [false, hidr])
  | .dispSend => (.dsp, selOfBits [true, true])
  | .dispDrop => (.dsp, selOfBits [true, false])

/-- How many bits, in whole bytes, a format's selector word takes. -/
def Format.tableBits (f : Format) : Nat := (f.width + 7) / 8 * 8

/-- The operation an opcode-table word of `nbits` bits stands for. A selector word does not name its stage, and rows of
different stages share words (R79 to R86): the model answers, of the rows in a format of that size, the first whose
`match` is the word itself, else the first that the decoder fires on it (DESIGN CHOICE, unsafe: entry 4). -/
def decodeTableWord (nbits w : Nat) : Option Instr :=
  let sized := opTable.filter fun r => r.fmt.tableBits = nbits && decide (w < 2 ^ r.fmt.width)
  let exact := sized.filter fun r => r.mtch.toNat = w && !r.dflt
  let rows := if exact.isEmpty then sized else exact
  (rows.flatMap fun r =>
    match decode r.fmt w with
    | .ok is => is
    | .error _ => []).head?

end Sys2Proof
end

