-- ==== Sys2Proof/Machine/Flags.lean ====
section
/-! DEFINITION. The selector bits and the selector words of the stages (30_encoding.md R79 to R86). -/
namespace Sys2Proof.Machine

/-- ARB_SEL bit 0, `MODE` (30_encoding.md R80). -/
def flagMode (s : State) : Bool := s.mode == .bridging

/-- BR_SEL bit 0, `U2S_GO` (30_encoding.md R81). -/
def flagU2sGo (s : State) : Bool := s.inp.vserRxValid && s.inp.uartTxReady

/-- BR_SEL bit 1, `S2U_GO` (30_encoding.md R81). -/
def flagS2uGo (s : State) : Bool := s.inp.uartRxValid && s.inp.vserTxReady

/-- BR_SEL bit 2, `BTO` (30_encoding.md R81; the comparison: 93_implementation_defined.md I9). -/
def flagBto (c : Config) (s : State) : Bool :=
  match c.bridgeCmp with
  | .ge => decide (c.bridgeIdleMs ≤ elapsed32 s.inp.nowMs s.brLastMs)
  | .gt => decide (c.bridgeIdleMs < elapsed32 s.inp.nowMs s.brLastMs)

/-- RXG_SEL bit 0, `GAP`: the comparison is strict (30_encoding.md R82). -/
def flagGap (c : Config) (s : State) : Bool :=
  decide (s.pos ≠ 0) && decide (c.gapUs < elapsed32 s.inp.nowUs s.lastRxUs)

/-- RXP_SEL bit 0, `DONE`: the sum does not wrap (30_encoding.md R84). -/
def flagDone (s : State) : Bool := decide (2 ≤ s.pos) && decide (s.pos = s.declLen.toNat + 2)

/-- RXP_SEL bit 1, `FULL` (30_encoding.md R84). -/
def flagFull (c : Config) (s : State) : Bool := decide (s.pos = c.bufCap)

/-- The selector word a stage builds from the state the stages before it left (30_encoding.md R78 to R86). -/
def selector (f : Format) (s : State) : Sel :=
  match f with
  | .rst => selOfBits [s.inp.rst]
  | .arb => selOfBits [flagMode s, s.inp.vserRxValid]
  | .br => selOfBits [flagU2sGo s, flagS2uGo s, flagBto cfg s]
  | .rxg => selOfBits [flagGap cfg s]
  | .rxb => selOfBits [s.inp.uartRxValid]
  | .rxp => selOfBits [flagDone s, flagFull cfg s]
  | .hdr => hdrWord (s.bufRead 0) (s.bufRead 2)
  | .dsp => selOfBits [s.ready, s.inp.hidReady]

/-- The operations a stage performs in a state (30_encoding.md R78). -/
def fire (f : Format) (s : State) : List Instr := firing f (selector f s)

end Sys2Proof.Machine
end

