-- ==== Sys2Proof/Machine/FrameDecoder.lean ====
section
/-! DEFINITION. Stage F, the Frame Decoder (42_decoder.md R140 to R142). -/
namespace Sys2Proof.Machine

/-- DEC_ACCEPT_RC: decode the payload into the report, set `ready` (42_decoder.md R141). -/
def execDecAcceptRc (s : State) : Host.Outcome State Fault Refusal :=
  .next (((s.setReport (reportOf cfg (unpack cfg s.payload))).setReady true).event .decAcceptRc)

/-- DEC_IGNORE: a frame that is not for this block changes nothing (42_decoder.md R142). -/
def execDecIgnore (_addr _typ : Byte) (s : State) : Host.Outcome State Fault Refusal := .next (s.event .decIgnore)

/-- Stage F: exactly one of DEC_ACCEPT_RC and DEC_IGNORE, by HDR_SEL (42_decoder.md R140, 30_encoding.md R85). -/
def runHeader (s : State) : Host.Outcome State Fault Refusal :=
  match fire .hdr s with
  | [.decAcceptRc] => execDecAcceptRc (s.noteOp .decAcceptRc)
  | [.decIgnore addr typ] => execDecIgnore addr typ (s.noteOp (.decIgnore addr typ))
  | _ => .next s

end Sys2Proof.Machine
end

