-- ==== Sys2Proof/Machine/Receiver.lean ====
section
/-! DEFINITION. Stages C, D and E, the Frame Receiver (41_receiver.md R120 to R126). -/
namespace Sys2Proof.Machine

/-- RX_GAP_RESET: discard the frame attempt after an inactivity gap (41_receiver.md R120). -/
def execRxGapReset (s : State) : Host.Outcome State Fault Refusal := .next ((s.setPos 0).event .rxGapReset)

/-- RX_NOP: no byte available (41_receiver.md R121). -/
def execRxNop (s : State) : Host.Outcome State Fault Refusal := .next s

/-- The length capture of RX_APPEND: the byte just stored at index 1 is the declared length (41_receiver.md R122). -/
def State.captureLength (s : State) (b : Byte) : State := if s.pos = 2 then s.setDeclLen b else s

/-- RX_APPEND: take one byte, store it at the write position, advance and stamp (41_receiver.md R122). Stage E follows
in the tick (40_tick.md R103; entry 7). -/
def execRxAppend (s : State) : Host.Outcome State Fault Refusal :=
  andThen ((s.setOut { s.out with uartRxPop := true }).bufWrite s.pos s.inp.uartRxData) fun t =>
    .next (((t.setPos (s.pos + 1)).setLastRxUs s.inp.nowUs).captureLength s.inp.uartRxData)

/-- RX_COMPLETE: run the decoder, then reset the write position (41_receiver.md R124; entry 7). -/
def execRxComplete (_full : Bool) (s : State) : Host.Outcome State Fault Refusal :=
  andThen (runHeader (s.event .rxComplete)) fun t => .next (t.setPos 0)

/-- RX_OVERFLOW: the buffer is full and the frame is not complete (41_receiver.md R125). -/
def execRxOverflow (s : State) : Host.Outcome State Fault Refusal := .next ((s.setPos 0).event .rxOverflow)

/-- RX_CONTINUE: the frame is still incomplete (41_receiver.md R126). -/
def execRxContinue (s : State) : Host.Outcome State Fault Refusal := .next s

end Sys2Proof.Machine
end

