-- ==== Sys2Proof/Machine/ReportDispatcher.lean ====
section
/-! DEFINITION. Stage G, the Report Dispatcher (43_dispatcher.md R170 to R172). -/
namespace Sys2Proof.Machine

/-- DISP_IDLE: nothing to send (43_dispatcher.md R170). -/
def execDispIdle (_hidr : Bool) (s : State) : Host.Outcome State Fault Refusal := .next s

/-- DISP_SEND: offer the report to a ready endpoint, clear `ready` (43_dispatcher.md R171). -/
def execDispSend (s : State) : Host.Outcome State Fault Refusal :=
  .next (((s.setOut { s.out with hidSend := true, hidReportId := cfg.reportId, hidReport := reportBytes cfg s.report
    }).setReady false).event .dispSend)

/-- DISP_DROP: the endpoint is busy; drop the report, clear `ready` (43_dispatcher.md R172). -/
def execDispDrop (s : State) : Host.Outcome State Fault Refusal := .next ((s.setReady false).event .dispDrop)

end Sys2Proof.Machine
end

