-- ==== Sys2Proof/Machine/Reset.lean ====
section
/-! DEFINITION. Stage R (70_reset_and_hazards.md R230). -/
namespace Sys2Proof.Machine

/-- RESET: every state element to its reset value, every output to its default, event RESET
(70_reset_and_hazards.md R230). -/
def execReset (s : State) : Host.Outcome State Fault Refusal :=
  .next ((s.resetElements.setOut Outputs.defaults).event .reset)

end Sys2Proof.Machine
end

