-- ==== Sys2Proof/Machine/Dispatch.lean ====
section
/-! DEFINITION. The meaning of each operation, one arm per constructor (30_encoding.md R87). -/
namespace Sys2Proof.Machine

def exec (i : Instr) (s : State) : Host.Outcome State Fault Refusal :=
  match i with
  | .reset => Sys2Proof.Machine.execReset s
  | .arbIdleRc => Sys2Proof.Machine.execArbIdleRc s
  | .arbEnter => Sys2Proof.Machine.execArbEnter s
  | .arbBridge vrx => Sys2Proof.Machine.execArbBridge vrx s
  | .brU2s s2uGo bto => Sys2Proof.Machine.execBrU2s s2uGo bto s
  | .brS2u u2sGo bto => Sys2Proof.Machine.execBrS2u u2sGo bto s
  | .brHold => Sys2Proof.Machine.execBrHold s
  | .arbExit => Sys2Proof.Machine.execArbExit s
  | .rxGapReset => Sys2Proof.Machine.execRxGapReset s
  | .rxNop => Sys2Proof.Machine.execRxNop s
  | .rxAppend => Sys2Proof.Machine.execRxAppend s
  | .rxComplete full => Sys2Proof.Machine.execRxComplete full s
  | .rxOverflow => Sys2Proof.Machine.execRxOverflow s
  | .rxContinue => Sys2Proof.Machine.execRxContinue s
  | .decAcceptRc => Sys2Proof.Machine.execDecAcceptRc s
  | .decIgnore addr typ => Sys2Proof.Machine.execDecIgnore addr typ s
  | .dispIdle hidr => Sys2Proof.Machine.execDispIdle hidr s
  | .dispSend => Sys2Proof.Machine.execDispSend s
  | .dispDrop => Sys2Proof.Machine.execDispDrop s

end Sys2Proof.Machine
end

