-- ==== Sys2Proof/Machine/Tick.lean ====
section
/-! DEFINITION. The tick and its stage order (40_tick.md R100 to R105). -/
namespace Sys2Proof.Machine

/-- Perform the operations of a stage in table order, each seeing the state the one before it left (30_encoding.md R78). -/
def runOps : List Instr → State → Host.Outcome State Fault Refusal
  | [], s => .next s
  | i :: is, s => andThen (exec i (s.noteOp i)) (runOps is)

/-- `run STAGE`: build the stage's selector word once and perform every operation it fires (30_encoding.md R78). -/
def runStage (f : Format) (s : State) : Host.Outcome State Fault Refusal := runOps (fire f s) s

/-- Stages D and E: the byte of this tick, and, where RX_APPEND fired, the post-append stage with the decoder in it
(40_tick.md R103, 41_receiver.md R123). -/
def runReceiver (s : State) : Host.Outcome State Fault Refusal :=
  andThen (runStage .rxb s) fun t => if .rxAppend ∈ fire .rxb s then runStage .rxp t else .next t

/-- The RC path: gap check, byte, dispatch (40_tick.md R102, R103). -/
def rcPath (s : State) : Host.Outcome State Fault Refusal :=
  andThen (runStage .rxg s) fun t => andThen (runReceiver t) (runStage .dsp)

/-- The bridge path: the relay (40_tick.md R102, R103). -/
def bridgePath (s : State) : Host.Outcome State Fault Refusal := runStage .br s

/-- A tick without reset: the arbiter, then the path it chose, the RC path exactly when ARB_IDLE_RC fired
(40_tick.md R102). -/
def arbitrate (s : State) : Host.Outcome State Fault Refusal :=
  andThen (runStage .arb s) fun t => if .arbIdleRc ∈ fire .arb s then rcPath t else bridgePath t

/-- The stages of a tick on its sampled inputs: RESET excludes every other stage (40_tick.md R101, R103). -/
def runTick (s : State) : Host.Outcome State Fault Refusal :=
  if .reset ∈ fire .rst s then runStage .rst s else arbitrate s

/-- One tick (40_tick.md R100, R103). -/
def tick (s : State) : Host.Outcome State Fault Refusal := runTick s.beginTick

end Sys2Proof.Machine
end

