-- ==== Sys2Proof/Machine/Step.lean ====
section
/-! DEFINITION. The step of the machine, and how an operation is made the next one. -/
namespace Sys2Proof.Machine

/-- One step is one tick (10_state.md R21, 40_tick.md R100; entry 1). -/
def step (s : State) : Host.Outcome State Fault Refusal := tick s

/-- The state in which the next step performs the operation an opcode-table word stands for. The block fetches nothing
(20_memory.md R64): this sets the selection of the operation, inputs included (entries 3, 4, 20). -/
def State.withFetchWord (s : State) (nbits w : Nat) : State :=
  match decodeTableWord nbits w with
  | some i => s.arrange i
  | none => s

end Sys2Proof.Machine
end

