-- ==== Sys2Proof/Safety.lean ====
section
/-! DEFINITION. What claims say about a run: completion, the tick-boundary invariant, the handshakes, the legal traces,
the error classes, the environment's obligations, and the input sequences the receiver's and the arbiter's laws speak of. -/
namespace Sys2Proof.Machine

/-- A run of `k` ticks (70_reset_and_hazards.md R244). -/
def run : Nat → State → Host.Outcome State Fault Refusal
  | 0, s => .next s
  | k + 1, s => andThen (step s) (run k)

/-- It answers a next state: no fault, no refusal. -/
def Completes (o : Host.Outcome State Fault Refusal) : Prop := ∃ t, o = .next t

/-- What holds at every tick boundary (10_state.md R35 items 1 to 3), with the buffer in its canonical form (entry 9). -/
structure AtBoundary (s : State) : Prop where
  /-- R35 item 1 -/
  pos_lt : s.pos < cfg.bufCap
  /-- R35 item 2 -/
  not_ready : s.ready = false
  /-- R35 item 3 -/
  length_captured : 2 ≤ s.pos → s.declLen = s.bufRead 1
  /-- entry 9 -/
  canonical : Memory.wf s.buf = true
  /-- 20_memory.md R51 -/
  in_space : Memory.inSpace cfg.bufCap s.buf = true

/-- The receiver's, decoder's and dispatcher's elements are the same in both states (44_arbiter.md R188). -/
structure SameRc (s t : State) : Prop where
  buf : t.buf = s.buf
  pos : t.pos = s.pos
  declLen : t.declLen = s.declLen
  lastRxUs : t.lastRxUs = s.lastRxUs
  report : t.report = s.report
  ready : t.ready = s.ready

/-- The block's duties at its ports in the tick that left `t` (40_tick.md R106 to R108). -/
structure HandshakesKept (t : State) : Prop where
  uart_pop : t.out.uartRxPop = true → t.inp.uartRxValid = true
  vser_pop : t.out.vserRxPop = true → t.inp.vserRxValid = true
  uart_offer : t.out.uartTxValid = true → t.inp.uartTxReady = true ∧ t.out.uartTxData = t.inp.vserRxData
  vser_offer : t.out.vserTxValid = true → t.inp.vserTxReady = true ∧ t.out.vserTxData = t.inp.uartRxData
  hid_offer : t.out.hidSend = true →
    t.inp.hidReady = true ∧ t.out.hidReportId = cfg.reportId ∧ t.out.hidReport = reportBytes cfg t.report

/-- Every output port is its default in a tick that performed none of the operations that drive it: the default and
driven-by columns of 10_state.md R33, over the operations of the tick that left `t` (40_tick.md R104; entry 14 for the
data ports). -/
structure UndrivenDefault (t : State) : Prop where
  uart_rx : .rxAppend ∉ t.fired → (∀ g b, .brS2u g b ∉ t.fired) → t.out.uartRxPop = false
  vser_rx : (∀ g b, .brU2s g b ∉ t.fired) → t.out.vserRxPop = false
  uart_tx : (∀ g b, .brU2s g b ∉ t.fired) → t.out.uartTxValid = false ∧ t.out.uartTxData = 0x00
  vser_tx : (∀ g b, .brS2u g b ∉ t.fired) → t.out.vserTxValid = false ∧ t.out.vserTxData = 0x00
  hid : .dispSend ∉ t.fired →
    t.out.hidSend = false ∧ t.out.hidReportId = 0x00 ∧ t.out.hidReport = Vector.replicate cfg.reportLen 0x00

/-- A data output is its default in a tick whose strobe is 0 (40_tick.md R104; entry 14). -/
structure IdleOutputs (o : Outputs) : Prop where
  uart_tx : o.uartTxValid = false → o.uartTxData = 0x00
  vser_tx : o.vserTxValid = false → o.vserTxData = 0x00
  hid : o.hidSend = false → o.hidReportId = 0x00 ∧ o.hidReport = Vector.replicate cfg.reportLen 0x00

/-- The possible traces of an RC-path tick (60_exceptions.md R204). -/
def rcTraces : List (List Event) :=
  [[], [.rxGapReset], [.rxComplete, .decAcceptRc, .dispSend], [.rxComplete, .decAcceptRc, .dispDrop],
   [.rxComplete, .decIgnore], [.rxOverflow]]

/-- What a bridge-path tick's relay may leave in the trace, but for ARB_EXIT (60_exceptions.md R204). -/
def relayTraces : List (List Event) := [[.brU2s], [.brS2u], [.brU2s, .brS2u], [.brHold]]

/-- The possible traces of a bridge-path tick (60_exceptions.md R204). -/
def bridgeTraces : List (List Event) := relayTraces ++ relayTraces.map (.arbEnter :: ·) ++ [[.arbExit]]

/-- The error class an event reports (60_exceptions.md R201). -/
def causeOf : Event → Option Cause
  | .rxGapReset => some .desync
  | .rxOverflow => some .overflow
  | .decIgnore => some .unrecognized
  | .dispDrop => some .endpointBusy
  | .reset | .arbEnter | .brU2s | .brS2u | .brHold | .arbExit | .rxComplete | .decAcceptRc | .dispSend => none

/-- The cause codes, labels of the spec (60_exceptions.md R201, 93_implementation_defined.md I14). -/
def Cause.code : Cause → Nat
  | .desync => 1
  | .overflow => 2
  | .unrecognized => 3
  | .endpointBusy => 4

/-- What the environment owes from one tick, with inputs `i` and outputs `o`, to the next, with inputs `j`
(40_tick.md R106, R109, 60_exceptions.md R208, 70_reset_and_hazards.md R244, 30_encoding.md R90). Time that has not gone
back is less than half the counter's period ahead (DESIGN CHOICE: entry 6). Time is compared only between two ticks
without `rst`: R109 makes no exception for a reset tick, but R90 says that the other inputs of a `rst` line do not matter
and lets it give no time; so here time may go back across a reset tick (DESIGN CHOICE: entry 6). A byte that was not popped
is held through a reset tick too (R106, R101; DEDUCED: entry 6). -/
structure EnvironmentObeys (i : Inputs) (o : Outputs) (j : Inputs) : Prop where
  us_forward : i.rst = false → j.rst = false → elapsed32 j.nowUs i.nowUs < 2 ^ (cfg.timeBits - 1)
  ms_forward : i.rst = false → j.rst = false → elapsed32 j.nowMs i.nowMs < 2 ^ (cfg.timeBits - 1)
  uart_held : i.uartRxValid = true → o.uartRxPop = false → j.uartRxValid = true ∧ j.uartRxData = i.uartRxData
  vser_held : i.vserRxValid = true → o.vserRxPop = false → j.vserRxValid = true ∧ j.vserRxData = i.vserRxData

/-- The environment meets its obligations through `k + 1` ticks (30_encoding.md R90: a well-formed script). -/
def ObeysFor : Nat → State → Prop
  | 0, _ => True
  | k + 1, s => ∀ t, step s = .next t → EnvironmentObeys t.inp t.out t.nextInputs ∧ ObeysFor k t

/-- The bytes a sequence of input vectors presents at the UART, in order. -/
def uartBytes (is : List Inputs) : List Byte := (is.filter fun i => i.uartRxValid).map fun i => i.uartRxData

/-- RC-path ticks in which no gap ends a frame attempt of `count` bytes whose last byte was taken at `last`
(41_receiver.md R127). -/
def attemptGoesOn (count : Nat) (last : Time) : List Inputs → Bool
  | [] => true
  | i :: is =>
    !i.rst && !i.vserRxValid && (count == 0 || decide (elapsed32 i.nowUs last ≤ cfg.gapUs)) &&
      (if i.uartRxValid then attemptGoesOn (count + 1) i.nowUs is else attemptGoesOn count last is)

/-- A byte moves in a bridge-path tick with these inputs (30_encoding.md R81). -/
def byteMoves (i : Inputs) : Bool := (i.vserRxValid && i.uartTxReady) || (i.uartRxValid && i.vserTxReady)

/-- Ticks that leave a bridge session open, its last move at `last` (44_arbiter.md R189). -/
def sessionGoesOn (last : Time) : List Inputs → Bool
  | [] => true
  | i :: is =>
    !i.rst && (if byteMoves i then sessionGoesOn i.nowMs is
      else decide (elapsed32 i.nowMs last < cfg.bridgeIdleMs) && sessionGoesOn last is)

/-- The time of the last move of a session (44_arbiter.md R189). -/
def lastMove (last : Time) : List Inputs → Time
  | [] => last
  | i :: is => lastMove (if byteMoves i then i.nowMs else last) is

end Sys2Proof.Machine
end

