-- ==== Sys2Proof/Certificates/Slice0/Obligations.lean ====
section
/-! DEFINITION. The statements about ELRSJ-CORE, from the numbered rules of spec/. -/
open Sys2Proof Sys2Proof.Machine

/-! ## The operations: selection, effect and frame. Each next state is written out in full, so every element that is not
named is unchanged, the frame buffer included. -/

/-- RESET (R230): selected by `rst`; every state element to its reset value, outputs to their defaults, event RESET. -/
def Obligations.ResetRestoresEveryElement : Prop :=
  ∀ s : State,
    (.reset ∈ fire .rst s ↔ s.inp.rst = true) ∧
    exec .reset s = .next { s with
      mode := .idle, brLastMs := 0, buf := [], pos := 0, declLen := 0x00, lastRxUs := 0
      report := { axis := Vector.replicate cfg.nAxes 0x0000, sw := 0x00 }, ready := false
      out := Outputs.defaults, trace := s.trace ++ [.reset] } ∧
    ∀ a, Memory.read [] a = 0x00

/-- ARB_IDLE_RC (R181): selected in IDLE with no VSER byte; it writes nothing, and the RC path follows. -/
def Obligations.ArbIdleRcRunsTheRcPath : Prop :=
  ∀ s : State,
    (.arbIdleRc ∈ fire .arb s ↔ s.mode = .idle ∧ s.inp.vserRxValid = false) ∧
    exec .arbIdleRc s = .next s ∧
    (.arbIdleRc ∈ fire .arb s → arbitrate s = rcPath (s.noteOp .arbIdleRc))

/-- ARB_ENTER (R182): selected in IDLE by a VSER byte; it enters bridging and stamps the timer, the bridge path follows in
the same tick, and the timeout has not run in it. -/
def Obligations.ArbEnterOpensTheBridge : Prop :=
  ∀ s : State,
    (.arbEnter ∈ fire .arb s ↔ s.mode = .idle ∧ s.inp.vserRxValid = true) ∧
    exec .arbEnter s = .next { s with
      mode := .bridging, brLastMs := s.inp.nowMs, trace := s.trace ++ [.arbEnter] } ∧
    (.arbEnter ∈ fire .arb s → arbitrate s = andThen (exec .arbEnter (s.noteOp .arbEnter)) bridgePath) ∧
    ∀ t, exec .arbEnter s = .next t → flagBto cfg t = false

/-- ARB_BRIDGE (R183): selected in BRIDGING, whatever VRX is; it writes nothing, and the bridge path follows. -/
def Obligations.ArbBridgeRunsTheRelay : Prop :=
  ∀ (s : State) (vrx : Bool),
    ((∃ v, .arbBridge v ∈ fire .arb s) ↔ s.mode = .bridging) ∧
    exec (.arbBridge vrx) s = .next s ∧
    (.arbBridge vrx ∈ fire .arb s → arbitrate s = bridgePath (s.noteOp (.arbBridge vrx)))

/-- BR_U2S (R184): selected by a VSER byte and a ready UART; it relays the byte unchanged and stamps the timer. -/
def Obligations.BrU2sRelaysOneByteToTheUart : Prop :=
  ∀ (s : State) (s2uGo bto : Bool),
    ((∃ g b, .brU2s g b ∈ fire .br s) ↔ s.inp.vserRxValid = true ∧ s.inp.uartTxReady = true) ∧
    exec (.brU2s s2uGo bto) s = .next { s with
      out := { s.out with vserRxPop := true, uartTxValid := true, uartTxData := s.inp.vserRxData }
      brLastMs := s.inp.nowMs, trace := s.trace ++ [.brU2s] }

/-- BR_S2U (R185): selected by a UART byte and a ready VSER sink; it relays the byte unchanged and stamps the timer. -/
def Obligations.BrS2uRelaysOneByteToVser : Prop :=
  ∀ (s : State) (u2sGo bto : Bool),
    ((∃ g b, .brS2u g b ∈ fire .br s) ↔ s.inp.uartRxValid = true ∧ s.inp.vserTxReady = true) ∧
    exec (.brS2u u2sGo bto) s = .next { s with
      out := { s.out with uartRxPop := true, vserTxValid := true, vserTxData := s.inp.uartRxData }
      brLastMs := s.inp.nowMs, trace := s.trace ++ [.brS2u] }

/-- BR_HOLD (R186): selected when nothing moves and the silence is below the timeout; it writes nothing. -/
def Obligations.BrHoldWaits : Prop :=
  ∀ s : State,
    (.brHold ∈ fire .br s ↔ byteMoves s.inp = false ∧ elapsed32 s.inp.nowMs s.brLastMs < cfg.bridgeIdleMs) ∧
    exec .brHold s = .next { s with trace := s.trace ++ [.brHold] }

/-- ARB_EXIT (R187): selected when nothing moves and the silence reaches the timeout; it returns to IDLE. -/
def Obligations.ArbExitClosesTheBridge : Prop :=
  ∀ s : State,
    (.arbExit ∈ fire .br s ↔ byteMoves s.inp = false ∧ cfg.bridgeIdleMs ≤ elapsed32 s.inp.nowMs s.brLastMs) ∧
    exec .arbExit s = .next { s with mode := .idle, trace := s.trace ++ [.arbExit] }

/-- RX_GAP_RESET (R120): selected by a frame attempt and a gap strictly above the threshold; it writes `pos` only. -/
def Obligations.RxGapResetDiscardsTheAttempt : Prop :=
  ∀ s : State,
    (.rxGapReset ∈ fire .rxg s ↔ s.pos ≠ 0 ∧ cfg.gapUs < elapsed32 s.inp.nowUs s.lastRxUs) ∧
    exec .rxGapReset s = .next { s with pos := 0, trace := s.trace ++ [.rxGapReset] }

/-- RX_NOP (R121): selected when no UART byte is present; it writes nothing, and stage E does not run. -/
def Obligations.RxNopDoesNothing : Prop :=
  ∀ s : State,
    (.rxNop ∈ fire .rxb s ↔ s.inp.uartRxValid = false) ∧
    exec .rxNop s = .next s ∧
    (.rxNop ∈ fire .rxb s → runReceiver s = .next (s.noteOp .rxNop))

/-- RX_APPEND (R122): selected by a UART byte; with a free index it pops the byte, stores it at `pos`, advances `pos`,
stamps the timer, captures the length at index 1, and stage E follows. Every other byte of a canonical buffer reads as
before. -/
def Obligations.RxAppendStoresOneByte : Prop :=
  ∀ s : State,
    (.rxAppend ∈ fire .rxb s ↔ s.inp.uartRxValid = true) ∧
    (s.pos < cfg.bufCap → ∃ t,
      exec .rxAppend s = .next t ∧
      t = { s with
        out := { s.out with uartRxPop := true }
        buf := Memory.write s.buf s.pos s.inp.uartRxData, pos := s.pos + 1, lastRxUs := s.inp.nowUs
        declLen := if s.pos = 1 then s.inp.uartRxData else s.declLen } ∧
      (Memory.wf s.buf = true → ∀ a, t.bufRead a = if a = s.pos then s.inp.uartRxData else s.bufRead a)) ∧
    (.rxAppend ∈ fire .rxb s →
      runReceiver s = andThen (exec .rxAppend (s.noteOp .rxAppend)) (runStage .rxp))

/-- RX_APPEND stops where the write index does not exist: the model's choice for states no run reaches (log entry 8;
R51 says no such index is ever accessed). -/
def Obligations.RxAppendStopsWithoutRoom : Prop :=
  ∀ s : State, cfg.bufCap ≤ s.pos → exec .rxAppend s = .fault .bufferIndex

/-- RX_COMPLETE (R124): selected by DONE, whatever FULL is; event, then the decoder, then `pos <- 0`. -/
def Obligations.RxCompleteDecodesAndResets : Prop :=
  ∀ (s : State) (full : Bool),
    ((∃ f, .rxComplete f ∈ fire .rxp s) ↔ 2 ≤ s.pos ∧ s.pos = s.declLen.toNat + 2) ∧
    exec (.rxComplete full) s = .next
      (if s.bufRead 0 = cfg.devAddr ∧ s.bufRead 2 = cfg.frameType then
        { s with
          report := reportOf cfg (unpack cfg s.payload), ready := true, pos := 0
          trace := s.trace ++ [.rxComplete, .decAcceptRc], fired := s.fired ++ [.decAcceptRc] }
       else
        { s with
          pos := 0, trace := s.trace ++ [.rxComplete, .decIgnore]
          fired := s.fired ++ [.decIgnore (s.bufRead 0) (s.bufRead 2)] })

/-- RX_OVERFLOW (R125): selected by a full buffer without completion; it writes `pos` only. -/
def Obligations.RxOverflowDiscardsTheFrame : Prop :=
  ∀ s : State,
    (.rxOverflow ∈ fire .rxp s ↔ ¬(2 ≤ s.pos ∧ s.pos = s.declLen.toNat + 2) ∧ s.pos = cfg.bufCap) ∧
    exec .rxOverflow s = .next { s with pos := 0, trace := s.trace ++ [.rxOverflow] }

/-- RX_CONTINUE (R126): selected when neither condition holds, always at `pos = 1`; it writes nothing. -/
def Obligations.RxContinueDoesNothing : Prop :=
  ∀ s : State,
    (.rxContinue ∈ fire .rxp s ↔ ¬(2 ≤ s.pos ∧ s.pos = s.declLen.toNat + 2) ∧ s.pos ≠ cfg.bufCap) ∧
    (s.pos = 1 → fire .rxp s = [.rxContinue]) ∧
    exec .rxContinue s = .next s

/-- DEC_ACCEPT_RC (R141): selected by the header 0xC8, 0x16; it writes every field of the report from the payload, sets
`ready`, and leaves the buffer. -/
def Obligations.DecAcceptWritesTheReport : Prop :=
  ∀ s : State,
    (.decAcceptRc ∈ fire .hdr s ↔ s.bufRead 0 = 0xC8 ∧ s.bufRead 2 = 0x16) ∧
    exec .decAcceptRc s = .next { s with
      report := {
        axis := Vector.ofFn fun k : Fin cfg.nAxes =>
          axisMap cfg ((unpack cfg s.payload)[k.val]'(Nat.lt_of_lt_of_le k.isLt (by decide)))
        sw := switchMap cfg (Vector.ofFn fun i : Fin cfg.nSw =>
          (unpack cfg s.payload)[8 + i.val]'(Nat.add_lt_add_left i.isLt 8)) }
      ready := true, trace := s.trace ++ [.decAcceptRc] } ∧
    ∀ k : Fin 22, s.payload[k] = s.bufRead (3 + k.val)

/-- DEC_IGNORE (R142): selected by every other header; it writes nothing. -/
def Obligations.DecIgnoreLeavesTheReport : Prop :=
  ∀ (s : State) (addr typ : Byte),
    ((∃ a t, .decIgnore a t ∈ fire .hdr s) ↔ hdrWord (s.bufRead 0) (s.bufRead 2) ≠ 0x16C8) ∧
    exec (.decIgnore addr typ) s = .next { s with trace := s.trace ++ [.decIgnore] }

/-- DISP_IDLE (R170): selected when `ready` is 0, whatever `hid_ready` is; it writes nothing. -/
def Obligations.DispIdleDoesNothing : Prop :=
  ∀ (s : State) (hidr : Bool),
    ((∃ h, .dispIdle h ∈ fire .dsp s) ↔ s.ready = false) ∧
    exec (.dispIdle hidr) s = .next s

/-- DISP_SEND (R171): selected by `ready` and a ready endpoint; it offers the report on id 0 and clears `ready`. -/
def Obligations.DispSendOffersTheReport : Prop :=
  ∀ s : State,
    (.dispSend ∈ fire .dsp s ↔ s.ready = true ∧ s.inp.hidReady = true) ∧
    exec .dispSend s = .next { s with
      out := { s.out with hidSend := true, hidReportId := 0x00, hidReport := reportBytes cfg s.report }
      ready := false, trace := s.trace ++ [.dispSend] }

/-- DISP_DROP (R172): selected by `ready` and a busy endpoint; it clears `ready` and keeps the report. -/
def Obligations.DispDropClearsReady : Prop :=
  ∀ s : State,
    (.dispDrop ∈ fire .dsp s ↔ s.ready = true ∧ s.inp.hidReady = false) ∧
    exec .dispDrop s = .next { s with ready := false, trace := s.trace ++ [.dispDrop] }

/-! ## Encoding -/

/-- Decoding the word of a well-formed operation gives the operation, and every operation it gives has that same word:
no free bit of a selector word is dropped. -/
def Obligations.DecodeOfEncodeGivesTheOperation : Prop :=
  ∀ i : Instr, i.wellFormed = true →
    ∃ is, decode (encode i).1 (encode i).2.toNat = .ok is ∧ i ∈ is ∧ ∀ j ∈ is, encode j = encode i

/-- Every operation the decoder gives for a word is well-formed and encodes to that word. -/
def Obligations.EncodeOfDecodeGivesTheWord : Prop :=
  ∀ (f : Format) (w : Nat) (is : List Instr), decode f w = .ok is →
    ∀ i ∈ is, i.wellFormed = true ∧ (encode i).1 = f ∧ (encode i).2.toNat = w

/-- Words written out from the selector formats decode to the operations they stand for; a word wider than its format is
rejected. -/
def Obligations.WrittenWordsDecode : Prop :=
  decode .arb 0b10 = .ok [.arbEnter] ∧
  decode .arb 0b11 = .ok [.arbBridge true] ∧
  decode .br 0b011 = .ok [.brU2s true false, .brS2u true false] ∧
  decode .br 0b100 = .ok [.arbExit] ∧
  decode .rxp 0b11 = .ok [.rxComplete true] ∧
  decode .hdr 0x16C8 = .ok [.decAcceptRc] ∧
  decode .hdr 0xC816 = .ok [.decIgnore 0x16 0xC8] ∧
  decode .dsp 0b01 = .ok [.dispDrop] ∧
  decode .rst 0b0 = .ok [] ∧
  decode .rxg 0b10 = .error (.widerThanFormat .rxg 2)

/-- Every well-formed operation can be the next one: from any canonical state, the step after `arrange` completes and
performs it, and so does the step after `withFetchWord` for the operation its word stands for (the model's arrangement,
log entry 20). -/
def Obligations.ArrangedOperationRuns : Prop :=
  ∀ s : State, Memory.wf s.buf = true →
    (∀ i : Instr, i.wellFormed = true → ∃ t, step (s.arrange i) = .next t ∧ i ∈ t.fired) ∧
    ∀ (nbits w : Nat) (i : Instr), decodeTableWord nbits w = some i →
      ∃ t, step (s.withFetchWord nbits w) = .next t ∧ i ∈ t.fired

/-! ## The tick -/

/-- A STAGE RUNS THE DECODED OPERATIONS: what the decoder gives for the stage's selector word is what the stage runs
through `exec`, in order, and stage F inside RX_COMPLETE is such a stage. -/
def Obligations.StageRunsDecodedOperations : Prop :=
  ∀ (f : Format) (s : State),
    (∃ is, decode f (selector f s).toNat = .ok is ∧ runStage f s = runOps is s) ∧
    (∀ i, decode f (selector f s).toNat = .ok [i] → runStage f s = exec i (s.noteOp i)) ∧
    (∀ i j, decode f (selector f s).toNat = .ok [i, j] →
      runStage f s = andThen (exec i (s.noteOp i)) fun t => exec j (t.noteOp j)) ∧
    runHeader s = runStage .hdr s

/-- A STEP RUNS THE STAGES IN ORDER (R103), on inputs sampled once, from default outputs and an empty trace: reset alone;
else the arbiter, then the relay, or gap check, byte, post-append where a byte was taken, and dispatch. Where RX_COMPLETE
fires, the decode stage runs inside it, and `pos <- 0` follows. -/
def Obligations.StepRunsTheStagesInOrder : Prop :=
  ∀ s : State,
    s.beginTick.inp = s.nextInputs ∧ s.beginTick.out = Outputs.defaults ∧ s.beginTick.trace = [] ∧
    (s.nextInputs.rst = true → step s = runStage .rst s.beginTick) ∧
    (s.nextInputs.rst = false → (s.mode = .bridging ∨ s.nextInputs.vserRxValid = true) →
      step s = andThen (runStage .arb s.beginTick) (runStage .br)) ∧
    (s.nextInputs.rst = false → s.mode = .idle → s.nextInputs.vserRxValid = false →
      step s = andThen (runStage .arb s.beginTick) fun t => andThen (runStage .rxg t) fun u =>
        andThen (andThen (runStage .rxb u) fun v =>
          if s.nextInputs.uartRxValid = true then runStage .rxp v else .next v) (runStage .dsp)) ∧
    ∀ full, exec (.rxComplete full) s =
      andThen (runStage .hdr (s.event .rxComplete)) fun t => .next { t with pos := 0 }

/-- Where the inputs of a tick come from: the head of the script; past its end a free value, the model's choice (log
entry 2). -/
def Obligations.InputsComeFromTheScript : Prop :=
  ∀ (s : State) (i : Inputs) (is : List Inputs),
    (s.script = i :: is → s.nextInputs = i ∧ s.beginTick.script = is) ∧
    (s.script = [] → s.nextInputs = Config.envInputs s.tickNo ∧ s.beginTick.script = [])

/-- A tick with `rst = 1` performs RESET and nothing else (R101): it completes, whatever else is presented. -/
def Obligations.ResetTickDoesNothingElse : Prop :=
  ∀ s : State, s.nextInputs.rst = true →
    ∃ t, step s = .next t ∧ t.fired = [.reset] ∧ t.trace = [.reset] ∧ t.out = Outputs.defaults ∧
      t.mode = .idle ∧ t.brLastMs = 0 ∧ (∀ a, t.bufRead a = 0x00) ∧ t.pos = 0 ∧ t.declLen = 0x00 ∧ t.lastRxUs = 0 ∧
      t.report = Report.zero ∧ t.ready = false

/-- After RESET, over a run (R231 items 1 to 3). The first tick with a VSER byte, whatever UART bytes came before, enters
bridging. With no VSER byte up to it, the first UART byte is stored at index 0 and no gap event is recorded, whatever its
value and its time. Whatever the inputs are, every tick completes, and while no tick has accepted a frame none has sent a
report and the report is as RESET left it. -/
def Obligations.FirstTickAfterReset : Prop :=
  (∀ (pre rest : List Inputs) (i : Inputs), (∀ j ∈ pre, j.rst = false ∧ j.vserRxValid = false) →
    i.rst = false → i.vserRxValid = true →
    ∃ t, run (pre.length + 1) (State.reset.setScript (pre ++ i :: rest)) = .next t ∧ .arbEnter ∈ t.trace ∧
      t.brLastMs = i.nowMs ∧ t.mode = .bridging ∧ t.out.hidSend = false) ∧
  (∀ (pre rest : List Inputs) (i : Inputs),
    (∀ j ∈ pre, j.rst = false ∧ j.vserRxValid = false ∧ j.uartRxValid = false) →
    i.rst = false → i.vserRxValid = false → i.uartRxValid = true →
    ∃ t, run (pre.length + 1) (State.reset.setScript (pre ++ i :: rest)) = .next t ∧ t.trace = [] ∧ t.mode = .idle ∧
      t.pos = 1 ∧ t.bufRead 0 = i.uartRxData ∧ t.lastRxUs = i.nowUs ∧ t.out.uartRxPop = true ∧
      t.out.hidSend = false) ∧
  ∀ (ins : List Inputs) (n : Nat), 1 ≤ n → ∃ t, run n (State.reset.setScript ins) = .next t ∧
    ((∀ (k : Nat) (u : State), 1 ≤ k → k ≤ n → run k (State.reset.setScript ins) = .next u → .decAcceptRc ∉ u.trace) →
      t.out.hidSend = false ∧ t.report = Report.zero)

/-! ## Whole-machine rules -/

/-- THE TICK-BOUNDARY INVARIANT (R35 items 1 to 3, and the canonical buffer) is kept by every step, from every state that
has it. -/
def Obligations.BoundaryInvariantIsKept : Prop :=
  ∀ s t : State, AtBoundary s → step s = .next t → AtBoundary t

/-- The reset state has the tick-boundary invariant. -/
def Obligations.ResetStateIsAtBoundary : Prop := AtBoundary State.reset

/-- From every state with the invariant, every tick completes: no condition stops the block (R200), every state has a
successor for every input vector (R244). -/
def Obligations.EveryTickCompletes : Prop :=
  ∀ s : State, AtBoundary s → Completes (step s)

/-- R35 item 4, as a rule about one step: after a tick, a non-empty attempt either just grew, and the timer is the tick's
`now_us` and the last byte the one presented, or the receiver's elements are as before. -/
def Obligations.TimerBelongsToTheLastByte : Prop :=
  ∀ s t : State, AtBoundary s → step s = .next t → 1 ≤ t.pos →
    (.rxAppend ∈ t.fired ∧ t.lastRxUs = t.inp.nowUs ∧ t.bufRead (t.pos - 1) = t.inp.uartRxData) ∨
    (.rxAppend ∉ t.fired ∧ t.lastRxUs = s.lastRxUs ∧ t.pos = s.pos ∧ ∀ a, t.bufRead a = s.bufRead a)

/-- Who writes each state element (R22 to R29): an element that a step changes was written by an operation its rule
lists, and that operation was performed in the tick. -/
def Obligations.EveryWriteHasItsOperation : Prop :=
  ∀ s t : State, step s = .next t →
    (t.mode ≠ s.mode → .arbEnter ∈ t.fired ∨ .arbExit ∈ t.fired ∨ .reset ∈ t.fired) ∧
    (t.brLastMs ≠ s.brLastMs →
      .arbEnter ∈ t.fired ∨ (∃ g b, .brU2s g b ∈ t.fired) ∨ (∃ g b, .brS2u g b ∈ t.fired) ∨ .reset ∈ t.fired) ∧
    (t.buf ≠ s.buf → .rxAppend ∈ t.fired ∨ .reset ∈ t.fired) ∧
    (t.pos ≠ s.pos → .rxGapReset ∈ t.fired ∨ .rxAppend ∈ t.fired ∨ (∃ f, .rxComplete f ∈ t.fired) ∨
      .rxOverflow ∈ t.fired ∨ .reset ∈ t.fired) ∧
    (t.declLen ≠ s.declLen → .rxAppend ∈ t.fired ∨ .reset ∈ t.fired) ∧
    (t.lastRxUs ≠ s.lastRxUs → .rxAppend ∈ t.fired ∨ .reset ∈ t.fired) ∧
    (t.report ≠ s.report → .decAcceptRc ∈ t.fired ∨ .reset ∈ t.fired) ∧
    (t.ready ≠ s.ready →
      .decAcceptRc ∈ t.fired ∨ .dispSend ∈ t.fired ∨ .dispDrop ∈ t.fired ∨ .reset ∈ t.fired)

/-- Buffer bytes are retained (R53): in a tick without RESET, a byte changes only at the index RX_APPEND wrote, which is
the write position after the gap check. -/
def Obligations.BufferBytesAreRetained : Prop :=
  ∀ (s t : State) (a : Nat), Memory.wf s.buf = true → step s = .next t → t.bufRead a ≠ s.bufRead a →
    .reset ∈ t.fired ∨ (.rxAppend ∈ t.fired ∧ a = (if .rxGapReset ∈ t.fired then 0 else s.pos) ∧
      t.bufRead a = t.inp.uartRxData)

/-- Equal contents are equal buffers: the canonical form has one list per content (log entry 9). -/
def Obligations.CanonicalBuffersAreUnique : Prop :=
  ∀ m n : List Host.Cell, Memory.wf m = true → Memory.wf n = true → (∀ a, Memory.read m a = Memory.read n a) → m = n

/-- The possible traces of a tick (R204's table), by path. -/
def Obligations.TracesAreTheListedOnes : Prop :=
  ∀ s t : State, AtBoundary s → step s = .next t →
    (t.inp.rst = true → t.trace = [.reset]) ∧
    (t.inp.rst = false → s.mode = .idle → t.inp.vserRxValid = false → t.trace ∈ rcTraces) ∧
    (t.inp.rst = false → s.mode = .idle → t.inp.vserRxValid = true → t.trace ∈ relayTraces.map (.arbEnter :: ·)) ∧
    (t.inp.rst = false → s.mode = .bridging → t.trace ∈ relayTraces ++ [[.arbExit]])

/-- The block's duties at its ports (R106 to R108), in every tick from every state. -/
def Obligations.HandshakesAreKept : Prop :=
  ∀ s t : State, step s = .next t → HandshakesKept t

/-- Every output port, strobes and data, is at its default in a tick that performs none of the operations that drive it
(R33, R104); and a data output is at its default in a tick whose strobe is 0. The values of the data outputs are log
entry 14, the record of the operations a tick performed log entry 15. -/
def Obligations.UndrivenOutputsAreDefault : Prop :=
  ∀ s t : State, step s = .next t → UndrivenDefault t ∧ IdleOutputs t.out

/-- Bridge isolation (R188): a bridge-path tick neither writes the receiver's, decoder's and dispatcher's elements nor
sends a report, and what it does to everything else does not depend on them. -/
def Obligations.BridgePathIsIsolated : Prop :=
  ∀ s s' : State, s.nextInputs.rst = false → (s.mode = .bridging ∨ s.nextInputs.vserRxValid = true) →
    s'.nextInputs = s.nextInputs → s'.mode = s.mode → s'.brLastMs = s.brLastMs →
    ∃ t t', step s = .next t ∧ step s' = .next t' ∧ SameRc s t ∧ SameRc s' t' ∧ t.out.hidSend = false ∧
      t'.out = t.out ∧ t'.mode = t.mode ∧ t'.brLastMs = t.brLastMs ∧ t'.trace = t.trace ∧ t'.fired = t.fired

/-- The delivery law (R173): a decode is followed in its tick by exactly one of DISP_SEND and DISP_DROP, chosen by
`hid_ready` alone; no report is sent that was not decoded in the tick, and none twice. -/
def Obligations.EveryDecodeIsSentOrDropped : Prop :=
  ∀ s t : State, AtBoundary s → step s = .next t →
    (.decAcceptRc ∈ t.trace →
      t.trace = [.rxComplete, .decAcceptRc, if t.inp.hidReady = true then .dispSend else .dispDrop]) ∧
    (t.out.hidSend = true ↔ .dispSend ∈ t.trace) ∧
    (.dispSend ∈ t.trace → .decAcceptRc ∈ t.trace) ∧
    t.ready = false

/-- Report atomicity (R60, R240): a report that is sent is, as a whole, the one decoded in that tick from the buffer. -/
def Obligations.SentReportsComeFromOneDecode : Prop :=
  ∀ s t : State, AtBoundary s → step s = .next t →
    (t.report ≠ s.report → t.inp.rst = false → .decAcceptRc ∈ t.trace) ∧
    (.decAcceptRc ∈ t.trace → t.report = reportOf cfg (unpack cfg t.payload)) ∧
    (t.out.hidSend = true → t.out.hidReport = reportBytes cfg (reportOf cfg (unpack cfg t.payload)))

/-! ## The laws of the receiver and the arbiter -/

/-- The completion law (R127): an attempt that starts at `pos = 0` and whose second byte `L` fits completes exactly once,
on its `(L+2)`-th byte, with no event before; `pos` is then 0 and the buffer holds the bytes. Ticks without a byte may
stand between. -/
def Obligations.FrameCompletesOnItsLastByte : Prop :=
  ∀ (s : State) (pre rest : List Inputs) (last : Inputs) (len : Byte),
    AtBoundary s → s.mode = .idle → s.pos = 0 → s.script = pre ++ last :: rest →
    attemptGoesOn 0 s.lastRxUs (pre ++ [last]) = true → last.uartRxValid = true →
    (uartBytes (pre ++ [last]))[1]? = some len → (uartBytes (pre ++ [last])).length = len.toNat + 2 →
    len.toNat + 2 ≤ cfg.bufCap →
    (∀ k, 1 ≤ k → k ≤ pre.length → ∃ u, run k s = .next u ∧ u.trace = [] ∧ u.mode = .idle ∧
      u.pos = (uartBytes (pre.take k)).length) ∧
    ∃ t, run (pre.length + 1) s = .next t ∧ t.pos = 0 ∧
      t.trace ∈ [[Event.rxComplete, .decAcceptRc, .dispSend], [.rxComplete, .decAcceptRc, .dispDrop],
        [.rxComplete, .decIgnore]] ∧
      ∀ (i : Nat) (b : Byte), (uartBytes (pre ++ [last]))[i]? = some b → t.bufRead i = b

/-- Long declared lengths (R129): an attempt whose second byte does not fit never completes; its `P_BUF_CAP`-th byte
overflows, and no report is written. -/
def Obligations.LongFrameOverflows : Prop :=
  ∀ (s : State) (pre rest : List Inputs) (last : Inputs) (len : Byte),
    AtBoundary s → s.mode = .idle → s.pos = 0 → s.script = pre ++ last :: rest →
    attemptGoesOn 0 s.lastRxUs (pre ++ [last]) = true → last.uartRxValid = true →
    (uartBytes (pre ++ [last]))[1]? = some len → (uartBytes (pre ++ [last])).length = cfg.bufCap →
    cfg.bufCap < len.toNat + 2 →
    (∀ k, 1 ≤ k → k ≤ pre.length → ∃ u, run k s = .next u ∧ u.trace = []) ∧
    ∃ t, run (pre.length + 1) s = .next t ∧ t.pos = 0 ∧ t.trace = [.rxOverflow] ∧ t.report = s.report

/-- The gap law (R128): with an attempt open, an RC-path tick more than `P_GAP_US` after the last append discards it before
any byte is taken; nothing is decoded, and a byte that is present starts a new attempt. -/
def Obligations.GapDiscardsBeforeTheByte : Prop :=
  ∀ s : State, Memory.wf s.buf = true → s.ready = false → s.mode = .idle → s.pos ≠ 0 →
    s.nextInputs.rst = false → s.nextInputs.vserRxValid = false →
    cfg.gapUs < elapsed32 s.nextInputs.nowUs s.lastRxUs →
    ∃ t, step s = .next t ∧ t.trace = [.rxGapReset] ∧ t.report = s.report ∧ t.out.hidSend = false ∧
      (s.nextInputs.uartRxValid = false → t.pos = 0 ∧ ∀ a, t.bufRead a = s.bufRead a) ∧
      (s.nextInputs.uartRxValid = true → t.pos = 1 ∧ t.lastRxUs = s.nextInputs.nowUs ∧
        ∀ a, t.bufRead a = if a = 0 then s.nextInputs.uartRxData else s.bufRead a)

/-- The session law (R189): after ARB_ENTER every tick is a bridge-path tick up to the first with no move and a full
timeout since the last move; that tick exits, and the next one is on the RC path unless a VSER byte is present. -/
def Obligations.SessionLastsUntilTheTimeout : Prop :=
  ∀ (s : State) (enter exit : Inputs) (ins rest : List Inputs),
    s.mode = .idle → s.script = enter :: ins ++ exit :: rest →
    enter.rst = false → enter.vserRxValid = true → sessionGoesOn enter.nowMs ins = true →
    exit.rst = false → byteMoves exit = false →
    cfg.bridgeIdleMs ≤ elapsed32 exit.nowMs (lastMove enter.nowMs ins) →
    (∀ k, 1 ≤ k → k ≤ ins.length + 1 → ∃ u, run k s = .next u ∧ u.mode = .bridging ∧
      u.brLastMs = lastMove enter.nowMs (ins.take (k - 1)) ∧ SameRc s u ∧ u.out.hidSend = false) ∧
    ∃ t, run (ins.length + 2) s = .next t ∧ t.mode = .idle ∧ t.trace = [.arbExit] ∧ SameRc s t ∧ t.script = rest ∧
      (t.nextInputs.rst = false → t.nextInputs.vserRxValid = false →
        step t = rcPath (t.beginTick.noteOp .arbIdleRc))

/-- Stalled sinks (R190): while a VSER byte stays present every tick is a bridge-path tick and the RC path never runs; and
with the sinks stalled, the tick that exits is followed by one that enters again. -/
def Obligations.StalledByteLocksOutTheRcPath : Prop :=
  ∀ (s : State) (ins rest : List Inputs), s.script = ins ++ rest →
    (∀ i ∈ ins, i.rst = false ∧ i.vserRxValid = true) →
    (∀ k, k ≤ ins.length → ∃ u, run k s = .next u ∧ SameRc s u ∧ (1 ≤ k → u.out.hidSend = false)) ∧
    (∀ x y more, ins = x :: y :: more → s.mode = .bridging → byteMoves x = false →
      cfg.bridgeIdleMs ≤ elapsed32 x.nowMs s.brLastMs →
      ∃ t u, run 1 s = .next t ∧ t.mode = .idle ∧ t.trace = [.arbExit] ∧ t.out = Outputs.defaults ∧
        run 2 s = .next u ∧ u.mode = .bridging ∧ .arbEnter ∈ u.trace ∧ u.brLastMs = y.nowMs)

/-! ## The pure functions -/

/-- UNPACK, bit by bit (R74): bit `j` of channel `i` is bit `(11i+j) mod 8` of payload byte `(11i+j) div 8`. -/
def Obligations.ChannelBitsComeFromTheirPayloadBits : Prop :=
  ∀ (q : Payload) (i j : Nat) (hi : i < 16) (hj : j < 11),
    ((unpack cfg q)[i]).getLsbD j = (q[(11 * i + j) / 8]'(by show _ < 22; omega)).getLsbD ((11 * i + j) % 8)

/-- UNPACK undoes PACK (R91). -/
def Obligations.UnpackOfPackIsTheChannels : Prop := ∀ ch : Channels, unpack cfg (pack cfg ch) = ch

/-- PACK undoes UNPACK (R91), so UNPACK is injective (R143). -/
def Obligations.PackOfUnpackIsThePayload : Prop :=
  (∀ q : Payload, pack cfg (unpack cfg q) = q) ∧ ∀ q q' : Payload, unpack cfg q = unpack cfg q' → q = q'

/-- AXIS_MAP (R144): `m + 32767` is the integer nearest to `(r − 172) · 65534 / 1639`, with no tie; `m` rises strictly; it
fits 16 bits exactly for r from 172 to 1811, where the stored word reads as `m`; everywhere the word is `m` modulo
2^16. -/
def Obligations.AxisMapIsTheRoundedLaw : Prop :=
  ∀ r r' : Channel,
    (-1639 < 2 * (1639 * (axisValue cfg r.toNat + 32767) - ((r.toNat : Int) - 172) * 65534) ∧
      2 * (1639 * (axisValue cfg r.toNat + 32767) - ((r.toNat : Int) - 172) * 65534) < 1639) ∧
    (r < r' → axisValue cfg r.toNat < axisValue cfg r'.toNat) ∧
    ((-32768 ≤ axisValue cfg r.toNat ∧ axisValue cfg r.toNat ≤ 32767) ↔ 172 ≤ r.toNat ∧ r.toNat ≤ 1811) ∧
    (172 ≤ r.toNat → r.toNat ≤ 1811 → (axisMap cfg r).toInt = axisValue cfg r.toNat) ∧
    ((axisMap cfg r).toNat : Int) = axisValue cfg r.toNat % 2 ^ 16

/-- The end points of AXIS_MAP (R144 item 3) and its wrapped neighbours (item 4). -/
def Obligations.AxisMapEndPoints : Prop :=
  axisMap cfg 172 = 0x8001 ∧ axisMap cfg 1811 = 0x7FFF ∧ axisMap cfg 171 = 0x7FD9 ∧ axisMap cfg 1812 = 0x8027

/-- SWITCH_MAP (R145): bit `i` of the report's `sw` is 1 exactly when channel `8 + i` is at or above 1792. -/
def Obligations.SwitchBitsFollowTheThreshold : Prop :=
  ∀ (ch : Channels) (i : Nat) (h : i < 8),
    (reportOf cfg ch).sw.getLsbD i = decide (1792 ≤ (ch[8 + i]'(by show _ < 16; omega)).toNat)

/-- REPORT_BYTES (R76): axis k low byte at 2k, high byte at 2k+1, `sw` at 16. -/
def Obligations.ReportBytesLayout : Prop :=
  ∀ (r : Report) (k : Nat) (h : k < 8),
    (reportBytes cfg r)[2 * k]'(by show _ < 17; omega) = r.axis[k].extractLsb' 0 8 ∧
    (reportBytes cfg r)[2 * k + 1]'(by show _ < 17; omega) = r.axis[k].extractLsb' 8 8 ∧
    (reportBytes cfg r)[16]'(by decide) = r.sw

/-- Determinism and idempotence of decoding (R148): buffers with equal bytes at 3 to 24 give the same report. -/
def Obligations.EqualPayloadsGiveEqualReports : Prop :=
  ∀ s s' t t' : State, (∀ a, 3 ≤ a → a ≤ 24 → s.bufRead a = s'.bufRead a) →
    exec .decAcceptRc s = .next t → exec .decAcceptRc s' = .next t' →
    t.report = t'.report ∧ reportBytes cfg t.report = reportBytes cfg t'.report

/-- `elapsed32(now, then) = (now − then) mod 2^32` (R9, R236): a true gap of `k · 2^32 + d` reads as `d`. -/
def Obligations.ElapsedTimeIsModular : Prop :=
  ∀ (now before : Time), (elapsed32 now before : Int) = ((now.toNat : Int) - before.toNat) % 2 ^ 32

/-- `frame` (R91): as many lines as bytes, line k presents byte k at `us = U + k · D` (modulo 2^32, log entry 17), and
input vector k of the script, its readinesses at their default 1 (R90), presents that byte at that time and no VSER
byte. -/
def Obligations.FrameLinesArePresentedInOrder : Prop :=
  ∀ (us dus ms : Time) (bytes : List Byte),
    (frameLines us dus ms bytes).length = bytes.length ∧
    (scriptInputs [.frame us dus ms bytes]).length = bytes.length ∧
    ∀ (k : Nat) (b : Byte), bytes[k]? = some b →
      (frameLines us dus ms bytes)[k]? = some (urxLine (us + BitVec.ofNat cfg.timeBits k * dus) ms b) ∧
      ∃ i, (scriptInputs [.frame us dus ms bytes])[k]? = some i ∧ i.rst = false ∧
        i.nowUs = us + BitVec.ofNat cfg.timeBits k * dus ∧ i.nowMs = ms ∧ i.uartRxValid = true ∧ i.uartRxData = b ∧
        i.vserRxValid = false ∧ i.uartTxReady = true ∧ i.vserTxReady = true ∧ i.hidReady = true

/-- END TO END: from any idle tick boundary with no attempt open, over RC-path ticks in which no gap ends the attempt, and
with ticks without a byte between them or not, the 26 bytes of a conforming RC-channels frame of any sixteen channels and
any CRC byte leave the report of those channels on the last byte; it is sent if `hid_ready` is 1 in that tick, and dropped
if it is 0. -/
def Obligations.RcFrameReachesTheHost : Prop :=
  ∀ (s : State) (pre rest : List Inputs) (last : Inputs) (ch : Channels) (crc : Byte),
    AtBoundary s → s.mode = .idle → s.pos = 0 → s.script = pre ++ last :: rest →
    attemptGoesOn 0 s.lastRxUs (pre ++ [last]) = true → last.uartRxValid = true →
    uartBytes (pre ++ [last]) = rcframeBytes ch crc →
    ∃ t, run (pre.length + 1) s = .next t ∧ t.pos = 0 ∧ t.report = reportOf cfg ch ∧
      (last.hidReady = true → t.trace = [.rxComplete, .decAcceptRc, .dispSend] ∧ t.out.hidSend = true ∧
        t.out.hidReportId = 0x00 ∧ t.out.hidReport = reportBytes cfg (reportOf cfg ch)) ∧
      (last.hidReady = false → t.trace = [.rxComplete, .decAcceptRc, .dispDrop] ∧ t.out.hidSend = false)

/-- END TO END, AS A SCRIPT: from any idle tick boundary with no attempt open, a `frame` line whose bytes are an `rcframe`
of any sixteen channels and any CRC byte is sent on its 26th tick as the report of those channels. Such a line presents
one byte in every tick, the bytes evenly `dus` apart, here at most `P_GAP_US`, with `hid_ready` at its default 1. -/
def Obligations.RcFrameLineReachesTheHost : Prop :=
  ∀ (s : State) (us dus ms : Time) (ch : Channels) (crc : Byte) (rest : List Inputs),
    AtBoundary s → s.mode = .idle → s.pos = 0 → dus.toNat ≤ cfg.gapUs →
    s.script = scriptInputs [.rcframe us dus ms ch crc] ++ rest →
    ∃ t, run 26 s = .next t ∧ t.trace = [.rxComplete, .decAcceptRc, .dispSend] ∧ t.out.hidSend = true ∧
      t.out.hidReportId = 0x00 ∧ t.out.hidReport = reportBytes cfg (reportOf cfg ch) ∧ t.pos = 0
end

