-- ==== Sys2Proof/Laws/Decode.lean ====
section
/-! SUPPORT. What each stage's selector word fires (30_encoding.md R79 to R86). -/
namespace Sys2Proof

@[simp] theorem firing_rst (r : Bool) : firing .rst (selOfBits [r]) = if r then [.reset] else [] := by
  cases r <;> rfl

@[simp] theorem firing_arb (m v : Bool) : firing .arb (selOfBits [m, v]) =
    if m then [.arbBridge v] else if v then [.arbEnter] else [.arbIdleRc] := by
  cases m <;> cases v <;> rfl

@[simp] theorem firing_br (u s b : Bool) : firing .br (selOfBits [u, s, b]) =
    if u then (if s then [.brU2s s b, .brS2u u b] else [.brU2s s b])
    else if s then [.brS2u u b] else if b then [.arbExit] else [.brHold] := by
  cases u <;> cases s <;> cases b <;> rfl

@[simp] theorem firing_rxg (g : Bool) : firing .rxg (selOfBits [g]) = if g then [.rxGapReset] else [] := by
  cases g <;> rfl

@[simp] theorem firing_rxb (u : Bool) : firing .rxb (selOfBits [u]) = if u then [.rxAppend] else [.rxNop] := by
  cases u <;> rfl

@[simp] theorem firing_rxp (d f : Bool) : firing .rxp (selOfBits [d, f]) =
    if d then [.rxComplete f] else if f then [.rxOverflow] else [.rxContinue] := by
  cases d <;> cases f <;> rfl

@[simp] theorem firing_dsp (r h : Bool) : firing .dsp (selOfBits [r, h]) =
    if r then (if h then [.dispSend] else [.dispDrop]) else [.dispIdle h] := by
  cases r <;> cases h <;> rfl

@[simp] theorem hdrAddr_hdrWord (a t : Byte) : hdrAddr (hdrWord a t) = a := by
  apply BitVec.eq_of_getLsbD_eq
  intro i hi
  simp only [hdrAddr, hdrWord, BitVec.getLsbD_extractLsb', BitVec.getLsbD_append]
  simp [hi]

@[simp] theorem hdrType_hdrWord (a t : Byte) : hdrType (hdrWord a t) = t := by
  apply BitVec.eq_of_getLsbD_eq
  intro i hi
  simp only [hdrType, hdrWord, BitVec.getLsbD_extractLsb', BitVec.getLsbD_append]
  simp [hi]

/-- A header word is its own two fields. -/
theorem hdrWord_fields (w : Sel) : hdrWord (hdrAddr w) (hdrType w) = w := by
  apply BitVec.eq_of_getLsbD_eq
  intro i hi
  simp only [hdrWord, hdrAddr, hdrType, BitVec.getLsbD_extractLsb', BitVec.getLsbD_append]
  by_cases h : i < 8
  · simp [h]
  · have h1 : i - 8 < 8 := by omega
    have h2 : 8 + (i - 8) = i := by omega
    simp [h, h1, h2]

/-- Two header words agree exactly when both fields do. -/
theorem hdrWord_inj {a t a' t' : Byte} : hdrWord a t = hdrWord a' t' ↔ a = a' ∧ t = t' := by
  constructor
  · intro h
    exact ⟨by simpa using congrArg hdrAddr h, by simpa using congrArg hdrType h⟩
  · rintro ⟨rfl, rfl⟩
    rfl

theorem firing_hdr_word (w : Sel) : firing .hdr w =
    if w = hdrWord Machine.cfg.devAddr Machine.cfg.frameType then [.decAcceptRc]
    else [.decIgnore (hdrAddr w) (hdrType w)] := by
  have hmask : ∀ v : Sel, v &&& 65535#16 = v := fun v => by
    rw [show 65535#16 = BitVec.allOnes 16 from rfl, BitVec.and_allOnes]
  unfold firing opTable
  simp only [List.filter_cons, List.filter_nil, OpRow.matches]
  by_cases h : w = hdrWord 0xC8#8 0x16#8 <;> simp [hmask, h]

@[simp] theorem firing_hdr (a t : Byte) : firing .hdr (hdrWord a t) =
    if a = Machine.cfg.devAddr ∧ t = Machine.cfg.frameType then [.decAcceptRc] else [.decIgnore a t] := by
  rw [firing_hdr_word]
  simp only [hdrWord_inj, hdrAddr_hdrWord, hdrType_hdrWord]

end Sys2Proof
end

