-- ==== Sys2Proof/Laws/Memory.lean ====
section
/-! SUPPORT. The frame buffer: reading after writing, and the canonical form. -/
namespace Sys2Proof.Machine

@[simp] theorem Memory.read_nil (i : Nat) : Memory.read [] i = Memory.default := rfl

/-- Every listed address of a canonical list is at or above its bound. -/
theorem Memory.wfFrom_mono {lo lo' : Nat} (h : lo' ≤ lo) :
    ∀ {m : List Host.Cell}, Memory.wfFrom lo m = true → Memory.wfFrom lo' m = true
  | [], _ => rfl
  | (a, c) :: m, hm => by
    simp only [Memory.wfFrom, Bool.and_eq_true, decide_eq_true_eq] at hm ⊢
    exact ⟨⟨by omega, hm.1.2⟩, hm.2⟩

/-- An address below every listed one reads as the default. -/
theorem Memory.read_below {lo i : Nat} (hi : i < lo) :
    ∀ {m : List Host.Cell}, Memory.wfFrom lo m = true → Memory.read m i = Memory.default
  | [], _ => rfl
  | (a, c) :: m, hm => by
    simp only [Memory.wfFrom, Bool.and_eq_true, decide_eq_true_eq] at hm
    have hne : a ≠ i := by omega
    simp only [Memory.read, if_neg hne]
    exact Memory.read_below (by omega) hm.2

/-- A write keeps the canonical form above any bound the written address respects. -/
theorem Memory.write_wfFrom {lo i : Nat} (b : Byte) (hi : lo ≤ i) :
    ∀ {m : List Host.Cell}, Memory.wfFrom lo m = true → Memory.wfFrom lo (Memory.write m i b) = true
  | [], _ => by
    unfold Memory.write
    split <;> simp_all [Memory.wfFrom]
  | (a, c) :: m, hm => by
    have hm' := hm
    simp only [Memory.wfFrom, Bool.and_eq_true, decide_eq_true_eq] at hm
    unfold Memory.write
    split
    · split
      · exact hm'
      · simp only [Memory.wfFrom, Bool.and_eq_true, decide_eq_true_eq]
        refine ⟨⟨hi, by simpa using ‹¬b = Memory.default›⟩, ⟨by omega, hm.1.2⟩, hm.2⟩
    · split
      · split
        · exact Memory.wfFrom_mono (by omega) hm.2
        · subst_vars
          simp only [Memory.wfFrom, Bool.and_eq_true, decide_eq_true_eq]
          exact ⟨⟨by omega, by simpa using ‹¬b = Memory.default›⟩, hm.2⟩
      · simp only [Memory.wfFrom, Bool.and_eq_true, decide_eq_true_eq]
        exact ⟨hm.1, Memory.write_wfFrom b (by omega) hm.2⟩

/-- A write keeps the canonical form. -/
theorem Memory.write_wf {m : List Host.Cell} (i : Nat) (b : Byte) (h : Memory.wf m = true) :
    Memory.wf (Memory.write m i b) = true := Memory.write_wfFrom b (Nat.zero_le i) h

/-- The reset buffer has the canonical form and lists nothing outside the space. -/
theorem State.reset_wf : Memory.wf State.reset.buf = true ∧ Memory.inSpace cfg.bufCap State.reset.buf = true := ⟨rfl, rfl⟩

/-- Every entry after a write is the written one or an entry from before. -/
theorem Memory.mem_write {i : Nat} {b : Byte} {x : Host.Cell} :
    ∀ {m : List Host.Cell}, x ∈ Memory.write m i b → x = (i, b) ∨ x ∈ m
  | [], h => by
    unfold Memory.write at h
    split at h
    · cases h
    · exact .inl (List.mem_singleton.mp h)
  | (a, c) :: m, h => by
    unfold Memory.write at h
    split at h
    · split at h
      · exact .inr h
      · exact List.mem_cons.mp h
    · split at h
      · split at h
        · exact .inr (List.mem_cons_of_mem _ h)
        · exact (List.mem_cons.mp h).imp_right (List.mem_cons_of_mem _)
      · rcases List.mem_cons.mp h with rfl | h
        · exact .inr List.mem_cons_self
        · exact (Memory.mem_write h).imp_right (List.mem_cons_of_mem _)

/-- A write inside the space lists nothing outside it. -/
theorem Memory.write_inSpace {n i : Nat} {m : List Host.Cell} (b : Byte) (hi : i < n)
    (hm : Memory.inSpace n m = true) : Memory.inSpace n (Memory.write m i b) = true := by
  simp only [Memory.inSpace, List.all_eq_true, decide_eq_true_eq] at hm ⊢
  intro x hx
  rcases Memory.mem_write hx with rfl | h
  · exact hi
  · exact hm x h

/-- Reading after a write: the written byte at its address, the old byte everywhere else. -/
theorem Memory.read_write_from {lo : Nat} (i : Nat) (b : Byte) (j : Nat) (hi : lo ≤ i) :
    ∀ {m : List Host.Cell}, Memory.wfFrom lo m = true →
      Memory.read (Memory.write m i b) j = if j = i then b else Memory.read m j
  | [], _ => by
    unfold Memory.write
    split
    · subst_vars; simp
    · simp [Memory.read, eq_comm]
  | (a, c) :: m, hm => by
    simp only [Memory.wfFrom, Bool.and_eq_true, decide_eq_true_eq] at hm
    unfold Memory.write
    split
    · rename_i hlt
      split
      · subst_vars
        split
        · subst_vars
          have hne : a ≠ j := by omega
          simp only [Memory.read, if_neg hne]
          exact Memory.read_below (by omega) hm.2
        · rfl
      · by_cases hj : j = i
        · simp [hj, Memory.read]
        · have hne : i ≠ j := fun h => hj h.symm
          simp only [Memory.read, if_neg hne, if_neg hj]
    · split
      · rename_i _ heq
        subst heq
        split
        · subst_vars
          by_cases hj : j = i
          · subst hj
            rw [if_pos rfl]
            exact Memory.read_below (Nat.lt_succ_self _) hm.2
          · have hne : i ≠ j := fun h => hj h.symm
            simp only [Memory.read, if_neg hne, if_neg hj]
        · by_cases hj : j = i
          · simp [hj, Memory.read]
          · have hne : i ≠ j := fun h => hj h.symm
            simp only [Memory.read, if_neg hne, if_neg hj]
      · by_cases ha : a = j
        · have hne : j ≠ i := by omega
          simp only [Memory.read, if_pos ha, if_neg hne]
        · simp only [Memory.read, if_neg ha]
          exact Memory.read_write_from i b j (by omega) hm.2

/-- Reading after a write to a canonical buffer. -/
theorem Memory.read_write {m : List Host.Cell} (h : Memory.wf m = true) (i : Nat) (b : Byte) (j : Nat) :
    Memory.read (Memory.write m i b) j = if j = i then b else Memory.read m j :=
  Memory.read_write_from i b j (Nat.zero_le i) h

/-- `bufWrite`, once and for all: inside the buffer it writes, outside it stops. -/
theorem State.bufWrite_cases (s : State) (i : Nat) (b : Byte) :
    (i < cfg.bufCap ∧ s.bufWrite i b = .next (s.setBuf (Memory.write s.buf i b))) ∨
      (cfg.bufCap ≤ i ∧ s.bufWrite i b = .fault .bufferIndex) := by
  unfold State.bufWrite
  by_cases h : i < cfg.bufCap
  · exact .inl ⟨h, by rw [if_pos h]⟩
  · exact .inr ⟨by omega, by rw [if_neg h]⟩

/-- What `bufWrite` does to each byte of a canonical buffer. -/
theorem State.bufWrite_next {s t : State} {i : Nat} {b : Byte} (h : s.bufWrite i b = .next t)
    (hw : Memory.wf s.buf = true) :
    (∀ a, t.bufRead a = if a = i then b else s.bufRead a) ∧ Memory.wf t.buf = true := by
  rcases s.bufWrite_cases i b with ⟨_, h'⟩ | ⟨_, h'⟩
  · rw [h'] at h
    cases h
    exact ⟨fun a => Memory.read_write hw i b a, Memory.write_wf i b hw⟩
  · rw [h'] at h
    cases h

end Sys2Proof.Machine
end

