-- ==== Sys2Proof/Laws/Params.lean ====
section
/-! SUPPORT. The widths and lengths of the machine's own configuration (00_scope.md R6). -/
namespace Sys2Proof.Machine

theorem cfg_payloadLen : cfg.payloadLen = 22 := rfl
theorem cfg_payloadBits : cfg.payloadBits = 176 := rfl
theorem cfg_nCh : cfg.nCh = 16 := rfl
theorem cfg_chBits : cfg.chBits = 11 := rfl
theorem cfg_nAxes : cfg.nAxes = 8 := rfl
theorem cfg_nSw : cfg.nSw = 8 := rfl
theorem cfg_reportLen : cfg.reportLen = 17 := rfl
theorem cfg_timeBits : cfg.timeBits = 32 := rfl

/-- A channel value is below 2^11 (30_encoding.md R74). -/
theorem channel_lt (r : cfg.ChannelWord) : r.toNat < 2 ^ 11 := r.isLt

/-- A time is below 2^32 (00_scope.md R6). -/
theorem time_lt (x : cfg.TimeWord) : x.toNat < 2 ^ 32 := x.isLt

end Sys2Proof.Machine
end

