-- ==== Sys2Proof/Laws/State.lean ====
section
/-! SUPPORT. One lemma per field per update of the state: no proof unfolds a record update. -/
namespace Sys2Proof.Machine

section
variable (s : State) (v : Mode)
@[simp] theorem State.setMode_mode : (s.setMode v).mode = v := rfl
@[simp] theorem State.setMode_brLastMs : (s.setMode v).brLastMs = s.brLastMs := rfl
@[simp] theorem State.setMode_buf : (s.setMode v).buf = s.buf := rfl
@[simp] theorem State.setMode_pos : (s.setMode v).pos = s.pos := rfl
@[simp] theorem State.setMode_declLen : (s.setMode v).declLen = s.declLen := rfl
@[simp] theorem State.setMode_lastRxUs : (s.setMode v).lastRxUs = s.lastRxUs := rfl
@[simp] theorem State.setMode_report : (s.setMode v).report = s.report := rfl
@[simp] theorem State.setMode_ready : (s.setMode v).ready = s.ready := rfl
@[simp] theorem State.setMode_inp : (s.setMode v).inp = s.inp := rfl
@[simp] theorem State.setMode_out : (s.setMode v).out = s.out := rfl
@[simp] theorem State.setMode_trace : (s.setMode v).trace = s.trace := rfl
@[simp] theorem State.setMode_fired : (s.setMode v).fired = s.fired := rfl
@[simp] theorem State.setMode_script : (s.setMode v).script = s.script := rfl
@[simp] theorem State.setMode_tickNo : (s.setMode v).tickNo = s.tickNo := rfl
end

section
variable (s : State) (v : Time)
@[simp] theorem State.setBrLastMs_mode : (s.setBrLastMs v).mode = s.mode := rfl
@[simp] theorem State.setBrLastMs_brLastMs : (s.setBrLastMs v).brLastMs = v := rfl
@[simp] theorem State.setBrLastMs_buf : (s.setBrLastMs v).buf = s.buf := rfl
@[simp] theorem State.setBrLastMs_pos : (s.setBrLastMs v).pos = s.pos := rfl
@[simp] theorem State.setBrLastMs_declLen : (s.setBrLastMs v).declLen = s.declLen := rfl
@[simp] theorem State.setBrLastMs_lastRxUs : (s.setBrLastMs v).lastRxUs = s.lastRxUs := rfl
@[simp] theorem State.setBrLastMs_report : (s.setBrLastMs v).report = s.report := rfl
@[simp] theorem State.setBrLastMs_ready : (s.setBrLastMs v).ready = s.ready := rfl
@[simp] theorem State.setBrLastMs_inp : (s.setBrLastMs v).inp = s.inp := rfl
@[simp] theorem State.setBrLastMs_out : (s.setBrLastMs v).out = s.out := rfl
@[simp] theorem State.setBrLastMs_trace : (s.setBrLastMs v).trace = s.trace := rfl
@[simp] theorem State.setBrLastMs_fired : (s.setBrLastMs v).fired = s.fired := rfl
@[simp] theorem State.setBrLastMs_script : (s.setBrLastMs v).script = s.script := rfl
@[simp] theorem State.setBrLastMs_tickNo : (s.setBrLastMs v).tickNo = s.tickNo := rfl
end

section
variable (s : State) (v : List Host.Cell)
@[simp] theorem State.setBuf_mode : (s.setBuf v).mode = s.mode := rfl
@[simp] theorem State.setBuf_brLastMs : (s.setBuf v).brLastMs = s.brLastMs := rfl
@[simp] theorem State.setBuf_buf : (s.setBuf v).buf = v := rfl
@[simp] theorem State.setBuf_pos : (s.setBuf v).pos = s.pos := rfl
@[simp] theorem State.setBuf_declLen : (s.setBuf v).declLen = s.declLen := rfl
@[simp] theorem State.setBuf_lastRxUs : (s.setBuf v).lastRxUs = s.lastRxUs := rfl
@[simp] theorem State.setBuf_report : (s.setBuf v).report = s.report := rfl
@[simp] theorem State.setBuf_ready : (s.setBuf v).ready = s.ready := rfl
@[simp] theorem State.setBuf_inp : (s.setBuf v).inp = s.inp := rfl
@[simp] theorem State.setBuf_out : (s.setBuf v).out = s.out := rfl
@[simp] theorem State.setBuf_trace : (s.setBuf v).trace = s.trace := rfl
@[simp] theorem State.setBuf_fired : (s.setBuf v).fired = s.fired := rfl
@[simp] theorem State.setBuf_script : (s.setBuf v).script = s.script := rfl
@[simp] theorem State.setBuf_tickNo : (s.setBuf v).tickNo = s.tickNo := rfl
end

section
variable (s : State) (v : Nat)
@[simp] theorem State.setPos_mode : (s.setPos v).mode = s.mode := rfl
@[simp] theorem State.setPos_brLastMs : (s.setPos v).brLastMs = s.brLastMs := rfl
@[simp] theorem State.setPos_buf : (s.setPos v).buf = s.buf := rfl
@[simp] theorem State.setPos_pos : (s.setPos v).pos = v := rfl
@[simp] theorem State.setPos_declLen : (s.setPos v).declLen = s.declLen := rfl
@[simp] theorem State.setPos_lastRxUs : (s.setPos v).lastRxUs = s.lastRxUs := rfl
@[simp] theorem State.setPos_report : (s.setPos v).report = s.report := rfl
@[simp] theorem State.setPos_ready : (s.setPos v).ready = s.ready := rfl
@[simp] theorem State.setPos_inp : (s.setPos v).inp = s.inp := rfl
@[simp] theorem State.setPos_out : (s.setPos v).out = s.out := rfl
@[simp] theorem State.setPos_trace : (s.setPos v).trace = s.trace := rfl
@[simp] theorem State.setPos_fired : (s.setPos v).fired = s.fired := rfl
@[simp] theorem State.setPos_script : (s.setPos v).script = s.script := rfl
@[simp] theorem State.setPos_tickNo : (s.setPos v).tickNo = s.tickNo := rfl
end

section
variable (s : State) (v : Byte)
@[simp] theorem State.setDeclLen_mode : (s.setDeclLen v).mode = s.mode := rfl
@[simp] theorem State.setDeclLen_brLastMs : (s.setDeclLen v).brLastMs = s.brLastMs := rfl
@[simp] theorem State.setDeclLen_buf : (s.setDeclLen v).buf = s.buf := rfl
@[simp] theorem State.setDeclLen_pos : (s.setDeclLen v).pos = s.pos := rfl
@[simp] theorem State.setDeclLen_declLen : (s.setDeclLen v).declLen = v := rfl
@[simp] theorem State.setDeclLen_lastRxUs : (s.setDeclLen v).lastRxUs = s.lastRxUs := rfl
@[simp] theorem State.setDeclLen_report : (s.setDeclLen v).report = s.report := rfl
@[simp] theorem State.setDeclLen_ready : (s.setDeclLen v).ready = s.ready := rfl
@[simp] theorem State.setDeclLen_inp : (s.setDeclLen v).inp = s.inp := rfl
@[simp] theorem State.setDeclLen_out : (s.setDeclLen v).out = s.out := rfl
@[simp] theorem State.setDeclLen_trace : (s.setDeclLen v).trace = s.trace := rfl
@[simp] theorem State.setDeclLen_fired : (s.setDeclLen v).fired = s.fired := rfl
@[simp] theorem State.setDeclLen_script : (s.setDeclLen v).script = s.script := rfl
@[simp] theorem State.setDeclLen_tickNo : (s.setDeclLen v).tickNo = s.tickNo := rfl
end

section
variable (s : State) (v : Time)
@[simp] theorem State.setLastRxUs_mode : (s.setLastRxUs v).mode = s.mode := rfl
@[simp] theorem State.setLastRxUs_brLastMs : (s.setLastRxUs v).brLastMs = s.brLastMs := rfl
@[simp] theorem State.setLastRxUs_buf : (s.setLastRxUs v).buf = s.buf := rfl
@[simp] theorem State.setLastRxUs_pos : (s.setLastRxUs v).pos = s.pos := rfl
@[simp] theorem State.setLastRxUs_declLen : (s.setLastRxUs v).declLen = s.declLen := rfl
@[simp] theorem State.setLastRxUs_lastRxUs : (s.setLastRxUs v).lastRxUs = v := rfl
@[simp] theorem State.setLastRxUs_report : (s.setLastRxUs v).report = s.report := rfl
@[simp] theorem State.setLastRxUs_ready : (s.setLastRxUs v).ready = s.ready := rfl
@[simp] theorem State.setLastRxUs_inp : (s.setLastRxUs v).inp = s.inp := rfl
@[simp] theorem State.setLastRxUs_out : (s.setLastRxUs v).out = s.out := rfl
@[simp] theorem State.setLastRxUs_trace : (s.setLastRxUs v).trace = s.trace := rfl
@[simp] theorem State.setLastRxUs_fired : (s.setLastRxUs v).fired = s.fired := rfl
@[simp] theorem State.setLastRxUs_script : (s.setLastRxUs v).script = s.script := rfl
@[simp] theorem State.setLastRxUs_tickNo : (s.setLastRxUs v).tickNo = s.tickNo := rfl
end

section
variable (s : State) (v : Report)
@[simp] theorem State.setReport_mode : (s.setReport v).mode = s.mode := rfl
@[simp] theorem State.setReport_brLastMs : (s.setReport v).brLastMs = s.brLastMs := rfl
@[simp] theorem State.setReport_buf : (s.setReport v).buf = s.buf := rfl
@[simp] theorem State.setReport_pos : (s.setReport v).pos = s.pos := rfl
@[simp] theorem State.setReport_declLen : (s.setReport v).declLen = s.declLen := rfl
@[simp] theorem State.setReport_lastRxUs : (s.setReport v).lastRxUs = s.lastRxUs := rfl
@[simp] theorem State.setReport_report : (s.setReport v).report = v := rfl
@[simp] theorem State.setReport_ready : (s.setReport v).ready = s.ready := rfl
@[simp] theorem State.setReport_inp : (s.setReport v).inp = s.inp := rfl
@[simp] theorem State.setReport_out : (s.setReport v).out = s.out := rfl
@[simp] theorem State.setReport_trace : (s.setReport v).trace = s.trace := rfl
@[simp] theorem State.setReport_fired : (s.setReport v).fired = s.fired := rfl
@[simp] theorem State.setReport_script : (s.setReport v).script = s.script := rfl
@[simp] theorem State.setReport_tickNo : (s.setReport v).tickNo = s.tickNo := rfl
end

section
variable (s : State) (v : Bool)
@[simp] theorem State.setReady_mode : (s.setReady v).mode = s.mode := rfl
@[simp] theorem State.setReady_brLastMs : (s.setReady v).brLastMs = s.brLastMs := rfl
@[simp] theorem State.setReady_buf : (s.setReady v).buf = s.buf := rfl
@[simp] theorem State.setReady_pos : (s.setReady v).pos = s.pos := rfl
@[simp] theorem State.setReady_declLen : (s.setReady v).declLen = s.declLen := rfl
@[simp] theorem State.setReady_lastRxUs : (s.setReady v).lastRxUs = s.lastRxUs := rfl
@[simp] theorem State.setReady_report : (s.setReady v).report = s.report := rfl
@[simp] theorem State.setReady_ready : (s.setReady v).ready = v := rfl
@[simp] theorem State.setReady_inp : (s.setReady v).inp = s.inp := rfl
@[simp] theorem State.setReady_out : (s.setReady v).out = s.out := rfl
@[simp] theorem State.setReady_trace : (s.setReady v).trace = s.trace := rfl
@[simp] theorem State.setReady_fired : (s.setReady v).fired = s.fired := rfl
@[simp] theorem State.setReady_script : (s.setReady v).script = s.script := rfl
@[simp] theorem State.setReady_tickNo : (s.setReady v).tickNo = s.tickNo := rfl
end

section
variable (s : State) (v : Outputs)
@[simp] theorem State.setOut_mode : (s.setOut v).mode = s.mode := rfl
@[simp] theorem State.setOut_brLastMs : (s.setOut v).brLastMs = s.brLastMs := rfl
@[simp] theorem State.setOut_buf : (s.setOut v).buf = s.buf := rfl
@[simp] theorem State.setOut_pos : (s.setOut v).pos = s.pos := rfl
@[simp] theorem State.setOut_declLen : (s.setOut v).declLen = s.declLen := rfl
@[simp] theorem State.setOut_lastRxUs : (s.setOut v).lastRxUs = s.lastRxUs := rfl
@[simp] theorem State.setOut_report : (s.setOut v).report = s.report := rfl
@[simp] theorem State.setOut_ready : (s.setOut v).ready = s.ready := rfl
@[simp] theorem State.setOut_inp : (s.setOut v).inp = s.inp := rfl
@[simp] theorem State.setOut_out : (s.setOut v).out = v := rfl
@[simp] theorem State.setOut_trace : (s.setOut v).trace = s.trace := rfl
@[simp] theorem State.setOut_fired : (s.setOut v).fired = s.fired := rfl
@[simp] theorem State.setOut_script : (s.setOut v).script = s.script := rfl
@[simp] theorem State.setOut_tickNo : (s.setOut v).tickNo = s.tickNo := rfl
end

section
variable (s : State) (v : List Inputs)
@[simp] theorem State.setScript_mode : (s.setScript v).mode = s.mode := rfl
@[simp] theorem State.setScript_brLastMs : (s.setScript v).brLastMs = s.brLastMs := rfl
@[simp] theorem State.setScript_buf : (s.setScript v).buf = s.buf := rfl
@[simp] theorem State.setScript_pos : (s.setScript v).pos = s.pos := rfl
@[simp] theorem State.setScript_declLen : (s.setScript v).declLen = s.declLen := rfl
@[simp] theorem State.setScript_lastRxUs : (s.setScript v).lastRxUs = s.lastRxUs := rfl
@[simp] theorem State.setScript_report : (s.setScript v).report = s.report := rfl
@[simp] theorem State.setScript_ready : (s.setScript v).ready = s.ready := rfl
@[simp] theorem State.setScript_inp : (s.setScript v).inp = s.inp := rfl
@[simp] theorem State.setScript_out : (s.setScript v).out = s.out := rfl
@[simp] theorem State.setScript_trace : (s.setScript v).trace = s.trace := rfl
@[simp] theorem State.setScript_fired : (s.setScript v).fired = s.fired := rfl
@[simp] theorem State.setScript_script : (s.setScript v).script = v := rfl
@[simp] theorem State.setScript_tickNo : (s.setScript v).tickNo = s.tickNo := rfl
end

section
variable (s : State) (e : Event)
@[simp] theorem State.event_mode : (s.event e).mode = s.mode := rfl
@[simp] theorem State.event_brLastMs : (s.event e).brLastMs = s.brLastMs := rfl
@[simp] theorem State.event_buf : (s.event e).buf = s.buf := rfl
@[simp] theorem State.event_pos : (s.event e).pos = s.pos := rfl
@[simp] theorem State.event_declLen : (s.event e).declLen = s.declLen := rfl
@[simp] theorem State.event_lastRxUs : (s.event e).lastRxUs = s.lastRxUs := rfl
@[simp] theorem State.event_report : (s.event e).report = s.report := rfl
@[simp] theorem State.event_ready : (s.event e).ready = s.ready := rfl
@[simp] theorem State.event_inp : (s.event e).inp = s.inp := rfl
@[simp] theorem State.event_out : (s.event e).out = s.out := rfl
@[simp] theorem State.event_trace : (s.event e).trace = s.trace ++ [e] := rfl
@[simp] theorem State.event_fired : (s.event e).fired = s.fired := rfl
@[simp] theorem State.event_script : (s.event e).script = s.script := rfl
@[simp] theorem State.event_tickNo : (s.event e).tickNo = s.tickNo := rfl
end

section
variable (s : State) (i : Instr)
@[simp] theorem State.noteOp_mode : (s.noteOp i).mode = s.mode := rfl
@[simp] theorem State.noteOp_brLastMs : (s.noteOp i).brLastMs = s.brLastMs := rfl
@[simp] theorem State.noteOp_buf : (s.noteOp i).buf = s.buf := rfl
@[simp] theorem State.noteOp_pos : (s.noteOp i).pos = s.pos := rfl
@[simp] theorem State.noteOp_declLen : (s.noteOp i).declLen = s.declLen := rfl
@[simp] theorem State.noteOp_lastRxUs : (s.noteOp i).lastRxUs = s.lastRxUs := rfl
@[simp] theorem State.noteOp_report : (s.noteOp i).report = s.report := rfl
@[simp] theorem State.noteOp_ready : (s.noteOp i).ready = s.ready := rfl
@[simp] theorem State.noteOp_inp : (s.noteOp i).inp = s.inp := rfl
@[simp] theorem State.noteOp_out : (s.noteOp i).out = s.out := rfl
@[simp] theorem State.noteOp_trace : (s.noteOp i).trace = s.trace := rfl
@[simp] theorem State.noteOp_fired : (s.noteOp i).fired = s.fired ++ [i] := rfl
@[simp] theorem State.noteOp_script : (s.noteOp i).script = s.script := rfl
@[simp] theorem State.noteOp_tickNo : (s.noteOp i).tickNo = s.tickNo := rfl
end

section
variable (s : State)
@[simp] theorem State.beginTick_mode : s.beginTick.mode = s.mode := rfl
@[simp] theorem State.beginTick_brLastMs : s.beginTick.brLastMs = s.brLastMs := rfl
@[simp] theorem State.beginTick_buf : s.beginTick.buf = s.buf := rfl
@[simp] theorem State.beginTick_pos : s.beginTick.pos = s.pos := rfl
@[simp] theorem State.beginTick_declLen : s.beginTick.declLen = s.declLen := rfl
@[simp] theorem State.beginTick_lastRxUs : s.beginTick.lastRxUs = s.lastRxUs := rfl
@[simp] theorem State.beginTick_report : s.beginTick.report = s.report := rfl
@[simp] theorem State.beginTick_ready : s.beginTick.ready = s.ready := rfl
@[simp] theorem State.beginTick_inp : s.beginTick.inp = s.nextInputs := rfl
@[simp] theorem State.beginTick_out : s.beginTick.out = Outputs.defaults := rfl
@[simp] theorem State.beginTick_trace : s.beginTick.trace = [] := rfl
@[simp] theorem State.beginTick_fired : s.beginTick.fired = [] := rfl
@[simp] theorem State.beginTick_script : s.beginTick.script = s.script.tail := rfl
@[simp] theorem State.beginTick_tickNo : s.beginTick.tickNo = s.tickNo + 1 := rfl
@[simp] theorem State.resetElements_mode : s.resetElements.mode = .idle := rfl
@[simp] theorem State.resetElements_brLastMs : s.resetElements.brLastMs = 0 := rfl
@[simp] theorem State.resetElements_buf : s.resetElements.buf = [] := rfl
@[simp] theorem State.resetElements_pos : s.resetElements.pos = 0 := rfl
@[simp] theorem State.resetElements_declLen : s.resetElements.declLen = 0x00 := rfl
@[simp] theorem State.resetElements_lastRxUs : s.resetElements.lastRxUs = 0 := rfl
@[simp] theorem State.resetElements_report : s.resetElements.report = Report.zero := rfl
@[simp] theorem State.resetElements_ready : s.resetElements.ready = false := rfl
@[simp] theorem State.resetElements_inp : s.resetElements.inp = s.inp := rfl
@[simp] theorem State.resetElements_out : s.resetElements.out = s.out := rfl
@[simp] theorem State.resetElements_trace : s.resetElements.trace = s.trace := rfl
@[simp] theorem State.resetElements_fired : s.resetElements.fired = s.fired := rfl
@[simp] theorem State.resetElements_script : s.resetElements.script = s.script := rfl
@[simp] theorem State.resetElements_tickNo : s.resetElements.tickNo = s.tickNo := rfl
@[simp] theorem State.relayU2s_mode : s.relayU2s.mode = s.mode := rfl
@[simp] theorem State.relayS2u_mode : s.relayS2u.mode = s.mode := rfl
@[simp] theorem State.relayU2s_brLastMs : s.relayU2s.brLastMs = s.brLastMs := rfl
@[simp] theorem State.relayS2u_brLastMs : s.relayS2u.brLastMs = s.brLastMs := rfl
@[simp] theorem State.relayU2s_buf : s.relayU2s.buf = s.buf := rfl
@[simp] theorem State.relayS2u_buf : s.relayS2u.buf = s.buf := rfl
@[simp] theorem State.relayU2s_pos : s.relayU2s.pos = s.pos := rfl
@[simp] theorem State.relayS2u_pos : s.relayS2u.pos = s.pos := rfl
@[simp] theorem State.relayU2s_declLen : s.relayU2s.declLen = s.declLen := rfl
@[simp] theorem State.relayS2u_declLen : s.relayS2u.declLen = s.declLen := rfl
@[simp] theorem State.relayU2s_lastRxUs : s.relayU2s.lastRxUs = s.lastRxUs := rfl
@[simp] theorem State.relayS2u_lastRxUs : s.relayS2u.lastRxUs = s.lastRxUs := rfl
@[simp] theorem State.relayU2s_report : s.relayU2s.report = s.report := rfl
@[simp] theorem State.relayS2u_report : s.relayS2u.report = s.report := rfl
@[simp] theorem State.relayU2s_ready : s.relayU2s.ready = s.ready := rfl
@[simp] theorem State.relayS2u_ready : s.relayS2u.ready = s.ready := rfl
@[simp] theorem State.relayU2s_inp : s.relayU2s.inp = s.inp := rfl
@[simp] theorem State.relayS2u_inp : s.relayS2u.inp = s.inp := rfl
@[simp] theorem State.relayU2s_trace : s.relayU2s.trace = s.trace := rfl
@[simp] theorem State.relayS2u_trace : s.relayS2u.trace = s.trace := rfl
@[simp] theorem State.relayU2s_fired : s.relayU2s.fired = s.fired := rfl
@[simp] theorem State.relayS2u_fired : s.relayS2u.fired = s.fired := rfl
@[simp] theorem State.relayU2s_script : s.relayU2s.script = s.script := rfl
@[simp] theorem State.relayS2u_script : s.relayS2u.script = s.script := rfl
@[simp] theorem State.relayU2s_tickNo : s.relayU2s.tickNo = s.tickNo := rfl
@[simp] theorem State.relayS2u_tickNo : s.relayS2u.tickNo = s.tickNo := rfl
@[simp] theorem State.relayU2s_out : s.relayU2s.out =
    { s.out with vserRxPop := true, uartTxValid := true, uartTxData := s.inp.vserRxData } := rfl
@[simp] theorem State.relayS2u_out : s.relayS2u.out =
    { s.out with uartRxPop := true, vserTxValid := true, vserTxData := s.inp.uartRxData } := rfl
@[simp] theorem State.captureLength_mode (b : Byte) : (s.captureLength b).mode = s.mode := by
  unfold State.captureLength; split <;> rfl
@[simp] theorem State.captureLength_brLastMs (b : Byte) : (s.captureLength b).brLastMs = s.brLastMs := by
  unfold State.captureLength; split <;> rfl
@[simp] theorem State.captureLength_buf (b : Byte) : (s.captureLength b).buf = s.buf := by
  unfold State.captureLength; split <;> rfl
@[simp] theorem State.captureLength_pos (b : Byte) : (s.captureLength b).pos = s.pos := by
  unfold State.captureLength; split <;> rfl
@[simp] theorem State.captureLength_declLen (b : Byte) :
    (s.captureLength b).declLen = if s.pos = 2 then b else s.declLen := by
  unfold State.captureLength; split <;> rfl
@[simp] theorem State.captureLength_lastRxUs (b : Byte) : (s.captureLength b).lastRxUs = s.lastRxUs := by
  unfold State.captureLength; split <;> rfl
@[simp] theorem State.captureLength_report (b : Byte) : (s.captureLength b).report = s.report := by
  unfold State.captureLength; split <;> rfl
@[simp] theorem State.captureLength_ready (b : Byte) : (s.captureLength b).ready = s.ready := by
  unfold State.captureLength; split <;> rfl
@[simp] theorem State.captureLength_inp (b : Byte) : (s.captureLength b).inp = s.inp := by
  unfold State.captureLength; split <;> rfl
@[simp] theorem State.captureLength_out (b : Byte) : (s.captureLength b).out = s.out := by
  unfold State.captureLength; split <;> rfl
@[simp] theorem State.captureLength_trace (b : Byte) : (s.captureLength b).trace = s.trace := by
  unfold State.captureLength; split <;> rfl
@[simp] theorem State.captureLength_fired (b : Byte) : (s.captureLength b).fired = s.fired := by
  unfold State.captureLength; split <;> rfl
@[simp] theorem State.captureLength_script (b : Byte) : (s.captureLength b).script = s.script := by
  unfold State.captureLength; split <;> rfl
@[simp] theorem State.captureLength_tickNo (b : Byte) : (s.captureLength b).tickNo = s.tickNo := by
  unfold State.captureLength; split <;> rfl

/-- Two states with equal fields are equal. -/
theorem State.ext_fields {s t : State} (h1 : s.mode = t.mode) (h2 : s.brLastMs = t.brLastMs) (h3 : s.buf = t.buf)
    (h4 : s.pos = t.pos) (h5 : s.declLen = t.declLen) (h6 : s.lastRxUs = t.lastRxUs) (h7 : s.report = t.report)
    (h8 : s.ready = t.ready) (h9 : s.inp = t.inp) (h10 : s.out = t.out) (h11 : s.trace = t.trace)
    (h12 : s.fired = t.fired) (h13 : s.script = t.script) (h14 : s.tickNo = t.tickNo) : s = t := by
  cases s; cases t; simp_all
end

/-! The reset state -/
@[simp] theorem State.reset_mode : State.reset.mode = .idle := rfl
@[simp] theorem State.reset_brLastMs : State.reset.brLastMs = 0 := rfl
@[simp] theorem State.reset_buf : State.reset.buf = [] := rfl
@[simp] theorem State.reset_pos : State.reset.pos = 0 := rfl
@[simp] theorem State.reset_declLen : State.reset.declLen = 0x00 := rfl
@[simp] theorem State.reset_lastRxUs : State.reset.lastRxUs = 0 := rfl
@[simp] theorem State.reset_report : State.reset.report = Report.zero := rfl
@[simp] theorem State.reset_ready : State.reset.ready = false := rfl
@[simp] theorem State.reset_inp : State.reset.inp = Inputs.zero := rfl
@[simp] theorem State.reset_out : State.reset.out = Outputs.defaults := rfl
@[simp] theorem State.reset_trace : State.reset.trace = [] := rfl
@[simp] theorem State.reset_fired : State.reset.fired = [] := rfl
@[simp] theorem State.reset_script : State.reset.script = [] := rfl
@[simp] theorem State.reset_tickNo : State.reset.tickNo = 0 := rfl

/-! Reading the buffer through the updates that leave it alone -/
section
variable (s : State) (a : Nat)
@[simp] theorem State.setMode_bufRead (v : Mode) : (s.setMode v).bufRead a = s.bufRead a := rfl
@[simp] theorem State.setBrLastMs_bufRead (v : Time) : (s.setBrLastMs v).bufRead a = s.bufRead a := rfl
@[simp] theorem State.setBuf_bufRead (v : List Host.Cell) : (s.setBuf v).bufRead a = Memory.read v a := rfl
@[simp] theorem State.setPos_bufRead (v : Nat) : (s.setPos v).bufRead a = s.bufRead a := rfl
@[simp] theorem State.setDeclLen_bufRead (v : Byte) : (s.setDeclLen v).bufRead a = s.bufRead a := rfl
@[simp] theorem State.setLastRxUs_bufRead (v : Time) : (s.setLastRxUs v).bufRead a = s.bufRead a := rfl
@[simp] theorem State.setReport_bufRead (v : Report) : (s.setReport v).bufRead a = s.bufRead a := rfl
@[simp] theorem State.setReady_bufRead (v : Bool) : (s.setReady v).bufRead a = s.bufRead a := rfl
@[simp] theorem State.setOut_bufRead (v : Outputs) : (s.setOut v).bufRead a = s.bufRead a := rfl
@[simp] theorem State.setScript_bufRead (v : List Inputs) : (s.setScript v).bufRead a = s.bufRead a := rfl
@[simp] theorem State.event_bufRead (e : Event) : (s.event e).bufRead a = s.bufRead a := rfl
@[simp] theorem State.noteOp_bufRead (i : Instr) : (s.noteOp i).bufRead a = s.bufRead a := rfl
@[simp] theorem State.beginTick_bufRead : s.beginTick.bufRead a = s.bufRead a := rfl
@[simp] theorem State.relayU2s_bufRead : s.relayU2s.bufRead a = s.bufRead a := rfl
@[simp] theorem State.relayS2u_bufRead : s.relayS2u.bufRead a = s.bufRead a := rfl
@[simp] theorem State.captureLength_bufRead (b : Byte) : (s.captureLength b).bufRead a = s.bufRead a := by
  unfold State.bufRead; simp
end

end Sys2Proof.Machine
end

