-- ==== Sys2Proof/Laws/Stages.lean ====
section
/-! SUPPORT. What each stage fires and what it leaves, once: each stage's whole effect is one state of the stage's
input state (30_encoding.md R78 to R86, 40_tick.md R103). -/
namespace Sys2Proof.Machine

@[simp] theorem andThen_next (s : State) (f : State → Host.Outcome State Fault Refusal) : andThen (.next s) f = f s := rfl
@[simp] theorem andThen_fault (r : Fault) (f : State → Host.Outcome State Fault Refusal) :
    andThen (.fault r) f = .fault r := rfl
@[simp] theorem andThen_refused (r : Refusal) (f : State → Host.Outcome State Fault Refusal) :
    andThen (.refused r) f = .refused r := rfl

/-- `andThen` goes on exactly from a next state. -/
theorem andThen_eq_next {o : Host.Outcome State Fault Refusal} {f : State → Host.Outcome State Fault Refusal} {t : State} :
    andThen o f = .next t ↔ ∃ s, o = .next s ∧ f s = .next t := by
  cases o <;> simp [andThen]

@[simp] theorem runOps_nil (s : State) : runOps [] s = .next s := rfl
@[simp] theorem runOps_cons (i : Instr) (is : List Instr) (s : State) :
    runOps (i :: is) s = andThen (exec i (s.noteOp i)) (runOps is) := rfl

/-- A stage that fires one operation runs that operation. -/
theorem runOps_one (i : Instr) (s : State) : runOps [i] s = exec i (s.noteOp i) := by
  rw [runOps_cons]
  cases exec i (s.noteOp i) <;> rfl

/-- The header of the buffer is the accepted one (42_decoder.md R140). -/
def headerAccepted (s : State) : Bool := decide (s.bufRead 0 = cfg.devAddr ∧ s.bufRead 2 = cfg.frameType)

theorem headerAccepted_iff {s : State} :
    headerAccepted s = true ↔ s.bufRead 0 = cfg.devAddr ∧ s.bufRead 2 = cfg.frameType := decide_eq_true_iff

theorem flagMode_iff {s : State} : flagMode s = true ↔ s.mode = .bridging := beq_iff_eq

/-! What fires -/
section
variable (s : State)

theorem fire_rst : fire .rst s = if s.inp.rst then [.reset] else [] := by simp [fire, selector]

theorem fire_arb : fire .arb s = if flagMode s then [.arbBridge s.inp.vserRxValid]
    else if s.inp.vserRxValid then [.arbEnter] else [.arbIdleRc] := by simp [fire, selector]

theorem fire_br : fire .br s =
    if flagU2sGo s then
      (if flagS2uGo s then [.brU2s (flagS2uGo s) (flagBto cfg s), .brS2u (flagU2sGo s) (flagBto cfg s)]
       else [.brU2s (flagS2uGo s) (flagBto cfg s)])
    else if flagS2uGo s then [.brS2u (flagU2sGo s) (flagBto cfg s)]
    else if flagBto cfg s then [.arbExit] else [.brHold] := by simp [fire, selector]

theorem fire_rxg : fire .rxg s = if flagGap cfg s then [.rxGapReset] else [] := by simp [fire, selector]

theorem fire_rxb : fire .rxb s = if s.inp.uartRxValid then [.rxAppend] else [.rxNop] := by simp [fire, selector]

theorem fire_rxp : fire .rxp s = if flagDone s then [.rxComplete (flagFull cfg s)]
    else if flagFull cfg s then [.rxOverflow] else [.rxContinue] := by simp [fire, selector]

theorem fire_hdr : fire .hdr s = if headerAccepted s then [.decAcceptRc]
    else [.decIgnore (s.bufRead 0) (s.bufRead 2)] := by simp [fire, selector, headerAccepted]

theorem fire_dsp : fire .dsp s = if s.ready then (if s.inp.hidReady then [.dispSend] else [.dispDrop])
    else [.dispIdle s.inp.hidReady] := by simp [fire, selector]
end

/-! What each stage leaves -/

/-- The state after stage C (41_receiver.md R120). -/
def gapChecked (s : State) : State :=
  if flagGap cfg s then ((s.noteOp .rxGapReset).setPos 0).event .rxGapReset else s

/-- The state after stage F (42_decoder.md R141, R142). -/
def decoded (s : State) : State :=
  if headerAccepted s then
    (((s.noteOp .decAcceptRc).setReport (reportOf cfg (unpack cfg s.payload))).setReady true).event .decAcceptRc
  else (s.noteOp (.decIgnore (s.bufRead 0) (s.bufRead 2))).event .decIgnore

/-- The state after RX_APPEND with room in the buffer (41_receiver.md R122). -/
def appended (s : State) : State :=
  ((((((s.noteOp .rxAppend).setOut { s.out with uartRxPop := true }).setBuf
    (Memory.write s.buf s.pos s.inp.uartRxData)).setPos (s.pos + 1)).setLastRxUs s.inp.nowUs).captureLength
      s.inp.uartRxData)

/-- The state after stage E (41_receiver.md R123 to R126). -/
def postAppended (s : State) : State :=
  if flagDone s then (decoded ((s.noteOp (.rxComplete (flagFull cfg s))).event .rxComplete)).setPos 0
  else if flagFull cfg s then ((s.noteOp .rxOverflow).setPos 0).event .rxOverflow
  else s.noteOp .rxContinue

/-- The state after stages D and E, with room in the buffer (40_tick.md R103). -/
def received (s : State) : State :=
  if s.inp.uartRxValid then postAppended (appended s) else s.noteOp .rxNop

/-- The state after stage G (43_dispatcher.md R170 to R172). -/
def dispatched (s : State) : State :=
  if s.ready then
    (if s.inp.hidReady then
      ((((s.noteOp .dispSend).setOut
        { s.out with hidSend := true, hidReportId := cfg.reportId, hidReport := reportBytes cfg s.report }).setReady
          false).event .dispSend)
    else ((s.noteOp .dispDrop).setReady false).event .dispDrop)
  else s.noteOp (.dispIdle s.inp.hidReady)

/-- The state after ARB_ENTER (44_arbiter.md R182). -/
def entered (s : State) : State :=
  ((((s.noteOp .arbEnter).setMode .bridging).setBrLastMs s.inp.nowMs).event .arbEnter)

/-- BR_U2S, where it fires (44_arbiter.md R184). -/
def movedU2s (s : State) (s2uGo bto : Bool) : State :=
  (((s.noteOp (.brU2s s2uGo bto)).relayU2s.setBrLastMs s.inp.nowMs).event .brU2s)

/-- BR_S2U, where it fires (44_arbiter.md R185). -/
def movedS2u (s : State) (u2sGo bto : Bool) : State :=
  (((s.noteOp (.brS2u u2sGo bto)).relayS2u.setBrLastMs s.inp.nowMs).event .brS2u)

/-- The state after stage B (44_arbiter.md R184 to R187). -/
def relayed (s : State) : State :=
  if flagU2sGo s then
    (if flagS2uGo s then
      movedS2u (movedU2s s (flagS2uGo s) (flagBto cfg s)) (flagU2sGo s) (flagBto cfg s)
     else movedU2s s (flagS2uGo s) (flagBto cfg s))
  else if flagS2uGo s then movedS2u s (flagU2sGo s) (flagBto cfg s)
  else if flagBto cfg s then ((s.noteOp .arbExit).setMode .idle).event .arbExit
  else (s.noteOp .brHold).event .brHold

theorem runStage_rxg (s : State) : runStage .rxg s = .next (gapChecked s) := by
  unfold runStage gapChecked
  rw [fire_rxg]
  split <;> rfl

theorem runHeader_eq (s : State) : runHeader s = .next (decoded s) := by
  unfold runHeader decoded
  rw [fire_hdr]
  cases headerAccepted s <;> rfl

/-- RX_APPEND, once: with room it appends, without room it stops (41_receiver.md R122; entry 8). -/
theorem execRxAppend_eq (s : State) : exec .rxAppend (s.noteOp .rxAppend) =
    if s.pos < cfg.bufCap then .next (appended s) else .fault .bufferIndex := by
  have h : exec .rxAppend (s.noteOp .rxAppend) = execRxAppend (s.noteOp .rxAppend) := rfl
  rw [h]
  unfold execRxAppend State.bufWrite appended
  by_cases hp : s.pos < cfg.bufCap
  · simp [hp]
  · simp [hp]

theorem runStage_rxp (s : State) : runStage .rxp s = .next (postAppended s) := by
  unfold runStage postAppended
  rw [fire_rxp]
  split
  · rw [runOps_one]
    show execRxComplete (flagFull cfg s) (s.noteOp (.rxComplete (flagFull cfg s))) = _
    unfold execRxComplete
    rw [runHeader_eq]
    rfl
  · split <;> rfl

/-- Stages D and E, once. -/
theorem runReceiver_eq (s : State) : runReceiver s =
    if s.inp.uartRxValid = true ∧ cfg.bufCap ≤ s.pos then .fault .bufferIndex else .next (received s) := by
  unfold runReceiver received runStage
  rw [fire_rxb]
  by_cases hv : s.inp.uartRxValid = true
  · rw [if_pos hv, runOps_one, execRxAppend_eq]
    by_cases hp : s.pos < cfg.bufCap
    · have hn : ¬ (s.inp.uartRxValid = true ∧ cfg.bufCap ≤ s.pos) := fun h => by omega
      rw [if_pos hp, if_neg hn, if_pos hv, andThen_next, if_pos (List.mem_singleton.mpr rfl)]
      exact runStage_rxp (appended s)
    · rw [if_neg hp, if_pos ⟨hv, by omega⟩]
      rfl
  · have hn : ¬ (s.inp.uartRxValid = true ∧ cfg.bufCap ≤ s.pos) := fun h => hv h.1
    rw [if_neg hv, if_neg hn, if_neg hv]
    rfl

theorem runStage_dsp (s : State) : runStage .dsp s = .next (dispatched s) := by
  unfold runStage dispatched
  rw [fire_dsp]
  split
  · split <;> rfl
  · rfl

/-- The RC path, once (40_tick.md R103). -/
theorem rcPath_eq (s : State) : rcPath s =
    if s.inp.uartRxValid = true ∧ cfg.bufCap ≤ (gapChecked s).pos then .fault .bufferIndex
    else .next (dispatched (received (gapChecked s))) := by
  have hi : (gapChecked s).inp = s.inp := by unfold gapChecked; split <;> rfl
  unfold rcPath
  rw [runStage_rxg, andThen_next, runReceiver_eq, hi]
  split
  · rfl
  · rw [andThen_next, runStage_dsp]

/-- The bridge path, once (40_tick.md R103). -/
theorem bridgePath_eq (s : State) : bridgePath s = .next (relayed s) := by
  unfold bridgePath runStage relayed
  rw [fire_br]
  split
  · split <;> rfl
  · split
    · rfl
    · split <;> rfl

/-- The arbiter chooses the path (40_tick.md R102, 44_arbiter.md R180). -/
theorem arbitrate_eq (s : State) : arbitrate s =
    if flagMode s then bridgePath (s.noteOp (.arbBridge s.inp.vserRxValid))
    else if s.inp.vserRxValid then bridgePath (entered s) else rcPath (s.noteOp .arbIdleRc) := by
  unfold arbitrate runStage
  rw [fire_arb]
  split
  · rw [runOps_one]
    show andThen (.next _) _ = _
    rw [andThen_next, if_neg (by simp)]
  · split
    · rw [runOps_one]
      show andThen (.next (entered s)) _ = _
      rw [andThen_next, if_neg (by simp)]
    · rw [runOps_one]
      show andThen (.next _) _ = _
      rw [andThen_next, if_pos (List.mem_singleton.mpr rfl)]

/-- The state after a RESET tick's operation (70_reset_and_hazards.md R230). -/
def wasReset (s : State) : State :=
  (((s.noteOp .reset).resetElements.setOut Outputs.defaults).event .reset)

/-- Reset comes first (40_tick.md R101). -/
theorem runTick_eq (s : State) : runTick s = if s.inp.rst then .next (wasReset s) else arbitrate s := by
  unfold runTick runStage
  rw [fire_rst]
  by_cases h : s.inp.rst = true
  · simp only [h, if_true, List.mem_singleton, runOps_one]
    rfl
  · simp [h]

end Sys2Proof.Machine
end

