-- ==== Sys2Proof/Laws/Tick.lean ====
section
/-! SUPPORT. What a step can do, once (40_tick.md R101 to R103). -/
namespace Sys2Proof.Machine

/-- The state an RC-path tick leaves (40_tick.md R103). -/
def rcResult (s : State) : State := dispatched (received (gapChecked (s.noteOp .arbIdleRc)))

/-- A tick is on the bridge path (40_tick.md R102). -/
abbrev onBridge (b : State) : Prop := b.mode = .bridging ∨ b.inp.vserRxValid = true

/-- The state the arbiter hands to the relay (44_arbiter.md R182, R183). -/
def arbitrated (b : State) : State :=
  if flagMode b then b.noteOp (.arbBridge b.inp.vserRxValid) else entered b

/-- One step, once: reset, bridge path, or RC path; the only stop is a byte with no room for it. -/
theorem step_eq (s : State) : step s =
    if s.nextInputs.rst = true then .next (wasReset s.beginTick)
    else if onBridge s.beginTick then .next (relayed (arbitrated s.beginTick))
    else if s.nextInputs.uartRxValid = true ∧ cfg.bufCap ≤ (gapChecked (s.beginTick.noteOp .arbIdleRc)).pos then
      .fault .bufferIndex
    else .next (rcResult s.beginTick) := by
  unfold step tick rcResult arbitrated
  rw [← State.beginTick_inp]
  generalize s.beginTick = b
  rw [runTick_eq]
  split
  · rfl
  · rw [arbitrate_eq]
    by_cases hm : flagMode b = true
    · rw [if_pos hm, if_pos (Or.inl (flagMode_iff.mp hm)), if_pos hm, bridgePath_eq]
    · rw [if_neg hm, if_neg hm]
      by_cases hv : b.inp.vserRxValid = true
      · rw [if_pos hv, if_pos (Or.inr hv), bridgePath_eq]
      · have hn : ¬ onBridge b := fun h => h.elim (fun h => hm (flagMode_iff.mpr h)) hv
        rw [if_neg hv, if_neg hn, rcPath_eq]
        rfl

/-- The inversion of a step: if it answers next t, one of the three paths ran and left t. -/
theorem step_cases {s t : State} (h : step s = .next t) :
    (s.nextInputs.rst = true ∧ t = wasReset s.beginTick) ∨
    (s.nextInputs.rst = false ∧ onBridge s.beginTick ∧ t = relayed (arbitrated s.beginTick)) ∨
    (s.nextInputs.rst = false ∧ s.mode = .idle ∧ s.nextInputs.vserRxValid = false ∧
      (s.nextInputs.uartRxValid = true → (gapChecked (s.beginTick.noteOp .arbIdleRc)).pos < cfg.bufCap) ∧
      t = rcResult s.beginTick) := by
  rw [step_eq] at h
  by_cases hr : s.nextInputs.rst = true
  · rw [if_pos hr] at h
    cases h
    exact .inl ⟨hr, rfl⟩
  · rw [if_neg hr] at h
    by_cases hb : onBridge s.beginTick
    · rw [if_pos hb] at h
      cases h
      exact .inr (.inl ⟨by simpa using hr, hb, rfl⟩)
    · rw [if_neg hb] at h
      split at h
      · cases h
      · cases h
        rename_i hp
        refine .inr (.inr ⟨by simpa using hr, ?_, ?_, ?_, rfl⟩)
        · cases hm : s.mode with
          | idle => rfl
          | bridging => exact absurd (Or.inl hm) hb
        · cases hv : s.nextInputs.vserRxValid with
          | false => rfl
          | true => exact absurd (Or.inr hv) hb
        · intro hv
          by_contra hc
          exact hp ⟨hv, by omega⟩

/-- A reset tick. -/
theorem step_reset {s : State} (h : s.nextInputs.rst = true) : step s = .next (wasReset s.beginTick) := by
  rw [step_eq, if_pos h]

/-- A bridge-path tick. -/
theorem step_bridge {s : State} (h : s.nextInputs.rst = false) (hb : onBridge s.beginTick) :
    step s = .next (relayed (arbitrated s.beginTick)) := by
  rw [step_eq, if_neg (by simp [h]), if_pos hb]

/-- An RC-path tick, with room for its byte. -/
theorem step_rc {s : State} (h : s.nextInputs.rst = false) (hm : s.mode = .idle)
    (hv : s.nextInputs.vserRxValid = false)
    (hp : s.nextInputs.uartRxValid = true → (gapChecked (s.beginTick.noteOp .arbIdleRc)).pos < cfg.bufCap) :
    step s = .next (rcResult s.beginTick) := by
  have hb : ¬ onBridge s.beginTick := by
    rintro (h1 | h1)
    · rw [State.beginTick_mode, hm] at h1
      cases h1
    · rw [State.beginTick_inp, hv] at h1
      cases h1
  rw [step_eq, if_neg (by simp [h]), if_neg hb, if_neg]
  rintro ⟨h1, h2⟩
  have := hp h1
  omega

/-- The next input vector when a script is loaded. -/
theorem nextInputs_cons {s : State} {i : Inputs} {is : List Inputs} (h : s.script = i :: is) :
    s.nextInputs = i := by
  simp [State.nextInputs, h]

@[simp] theorem run_zero (s : State) : run 0 s = .next s := rfl

theorem run_succ_eq (k : Nat) (s : State) : run (k + 1) s = andThen (step s) (run k) := rfl

/-- A run of one more step is the step and then the rest of the run. -/
theorem run_succ {s t : State} (k : Nat) (h : step s = .next t) : run (k + 1) s = run k t := by
  rw [run_succ_eq, h, andThen_next]

theorem core_run_next (M : Host.Core) (k : Nat) {s t : M.State} (h : M.step s = .next t) :
    M.run (k + 1) s = M.run k t := by
  simp only [Host.Core.run, h]

theorem core_run_fault (M : Host.Core) (k : Nat) {s : M.State} {r : M.Fault} (h : M.step s = .fault r) :
    M.run (k + 1) s = .fault r := by
  simp only [Host.Core.run, h]

theorem core_run_refused (M : Host.Core) (k : Nat) {s : M.State} {r : M.Refusal} (h : M.step s = .refused r) :
    M.run (k + 1) s = .refused r := by
  simp only [Host.Core.run, h]

/-- The host's run is a run of ticks. -/
theorem core_run (k : Nat) : ∀ s : State, Host.Core.run core k s = run k s := by
  induction k with
  | zero => exact fun _ => rfl
  | succ k ih =>
    intro s
    rw [run_succ_eq]
    cases hs : step s with
    | next t => exact (core_run_next core k hs).trans (ih t)
    | fault r => exact core_run_fault core k hs
    | refused r => exact core_run_refused core k hs

/-- A run splits into a first and a second part. -/
theorem run_add {s t : State} (m n : Nat) (h : run m s = .next t) : run (m + n) s = run n t := by
  induction m generalizing s with
  | zero =>
    cases h
    rw [Nat.zero_add]
  | succ m ih =>
    rw [run_succ_eq] at h
    obtain ⟨u, hu, hr⟩ := andThen_eq_next.mp h
    rw [Nat.succ_add, run_succ _ hu]
    exact ih hr

end Sys2Proof.Machine
end

