-- ==== Sys2Proof/Laws/Elements.lean ====
section
/-! SUPPORT. What each stage leaves alone, and what it leaves in the elements it writes. -/
namespace Sys2Proof.Machine

/-! The selector bits as propositions (30_encoding.md R81, R82, R84) -/
section
variable {s : State}

theorem flagU2sGo_iff : flagU2sGo s = true ↔ s.inp.vserRxValid = true ∧ s.inp.uartTxReady = true := by simp [flagU2sGo]
theorem flagS2uGo_iff : flagS2uGo s = true ↔ s.inp.uartRxValid = true ∧ s.inp.vserTxReady = true := by simp [flagS2uGo]
theorem flagBto_iff : flagBto cfg s = true ↔ cfg.bridgeIdleMs ≤ elapsed32 s.inp.nowMs s.brLastMs :=
  decide_eq_true_iff
theorem flagGap_iff : flagGap cfg s = true ↔ s.pos ≠ 0 ∧ cfg.gapUs < elapsed32 s.inp.nowUs s.lastRxUs := by
  simp [flagGap]
theorem flagDone_iff : flagDone s = true ↔ 2 ≤ s.pos ∧ s.pos = s.declLen.toNat + 2 := by simp [flagDone]
theorem flagFull_iff : flagFull cfg s = true ↔ s.pos = cfg.bufCap := decide_eq_true_iff

/-- A byte moves exactly when one of the relay's operations fires (30_encoding.md R81). -/
theorem byteMoves_eq : byteMoves s.inp = (flagU2sGo s || flagS2uGo s) := rfl

@[simp] theorem flagMode_beginTick : flagMode s.beginTick = flagMode s := rfl
theorem flagMode_bridging (h : s.mode = .bridging) : flagMode s = true := flagMode_iff.mpr h
theorem flagMode_idle (h : s.mode = .idle) : flagMode s = false := by simp [flagMode, h]
@[simp] theorem headerAccepted_noteOp (i : Instr) : headerAccepted (s.noteOp i) = headerAccepted s := rfl
@[simp] theorem headerAccepted_event (e : Event) : headerAccepted (s.event e) = headerAccepted s := rfl
end

/-! Which operations a stage fires, one at a time -/
section
variable {s : State} {i : Instr}

theorem mem_fire_arb : i ∈ fire .arb s ↔ (s.mode = .bridging ∧ i = .arbBridge s.inp.vserRxValid) ∨
    (s.mode = .idle ∧ s.inp.vserRxValid = true ∧ i = .arbEnter) ∨
    (s.mode = .idle ∧ s.inp.vserRxValid = false ∧ i = .arbIdleRc) := by
  rw [fire_arb]
  unfold flagMode
  cases s.mode <;> cases s.inp.vserRxValid <;> simp

theorem mem_fire_br : i ∈ fire .br s ↔ (flagU2sGo s = true ∧ i = .brU2s (flagS2uGo s) (flagBto cfg s)) ∨
    (flagS2uGo s = true ∧ i = .brS2u (flagU2sGo s) (flagBto cfg s)) ∨
    (flagU2sGo s = false ∧ flagS2uGo s = false ∧ flagBto cfg s = true ∧ i = .arbExit) ∨
    (flagU2sGo s = false ∧ flagS2uGo s = false ∧ flagBto cfg s = false ∧ i = .brHold) := by
  rw [fire_br]
  cases flagU2sGo s <;> cases flagS2uGo s <;> cases flagBto cfg s <;> simp

theorem mem_fire_rxg : i ∈ fire .rxg s ↔ flagGap cfg s = true ∧ i = .rxGapReset := by
  rw [fire_rxg]
  cases flagGap cfg s <;> simp

theorem mem_fire_rxb : i ∈ fire .rxb s ↔
    (s.inp.uartRxValid = true ∧ i = .rxAppend) ∨ (s.inp.uartRxValid = false ∧ i = .rxNop) := by
  rw [fire_rxb]
  cases s.inp.uartRxValid <;> simp

theorem mem_fire_rxp : i ∈ fire .rxp s ↔ (flagDone s = true ∧ i = .rxComplete (flagFull cfg s)) ∨
    (flagDone s = false ∧ flagFull cfg s = true ∧ i = .rxOverflow) ∨
    (flagDone s = false ∧ flagFull cfg s = false ∧ i = .rxContinue) := by
  rw [fire_rxp]
  cases flagDone s <;> cases flagFull cfg s <;> simp

theorem mem_fire_hdr : i ∈ fire .hdr s ↔ (headerAccepted s = true ∧ i = .decAcceptRc) ∨
    (headerAccepted s = false ∧ i = .decIgnore (s.bufRead 0) (s.bufRead 2)) := by
  rw [fire_hdr]
  cases headerAccepted s <;> simp

theorem mem_fire_dsp : i ∈ fire .dsp s ↔ (s.ready = true ∧ s.inp.hidReady = true ∧ i = .dispSend) ∨
    (s.ready = true ∧ s.inp.hidReady = false ∧ i = .dispDrop) ∨
    (s.ready = false ∧ i = .dispIdle s.inp.hidReady) := by
  rw [fire_dsp]
  cases s.ready <;> cases s.inp.hidReady <;> simp
end

section
variable (s : State)

@[simp] theorem gapChecked_mode : (gapChecked s).mode = s.mode := by
  unfold gapChecked; split <;> rfl
@[simp] theorem gapChecked_brLastMs : (gapChecked s).brLastMs = s.brLastMs := by
  unfold gapChecked; split <;> rfl
@[simp] theorem gapChecked_buf : (gapChecked s).buf = s.buf := by
  unfold gapChecked; split <;> rfl
@[simp] theorem gapChecked_declLen : (gapChecked s).declLen = s.declLen := by
  unfold gapChecked; split <;> rfl
@[simp] theorem gapChecked_lastRxUs : (gapChecked s).lastRxUs = s.lastRxUs := by
  unfold gapChecked; split <;> rfl
@[simp] theorem gapChecked_report : (gapChecked s).report = s.report := by
  unfold gapChecked; split <;> rfl
@[simp] theorem gapChecked_ready : (gapChecked s).ready = s.ready := by
  unfold gapChecked; split <;> rfl
@[simp] theorem gapChecked_inp : (gapChecked s).inp = s.inp := by
  unfold gapChecked; split <;> rfl
@[simp] theorem gapChecked_out : (gapChecked s).out = s.out := by
  unfold gapChecked; split <;> rfl
@[simp] theorem gapChecked_script : (gapChecked s).script = s.script := by
  unfold gapChecked; split <;> rfl
@[simp] theorem gapChecked_tickNo : (gapChecked s).tickNo = s.tickNo := by
  unfold gapChecked; split <;> rfl
@[simp] theorem decoded_mode : (decoded s).mode = s.mode := by
  unfold decoded; split <;> rfl
@[simp] theorem decoded_brLastMs : (decoded s).brLastMs = s.brLastMs := by
  unfold decoded; split <;> rfl
@[simp] theorem decoded_buf : (decoded s).buf = s.buf := by
  unfold decoded; split <;> rfl
@[simp] theorem decoded_pos : (decoded s).pos = s.pos := by
  unfold decoded; split <;> rfl
@[simp] theorem decoded_declLen : (decoded s).declLen = s.declLen := by
  unfold decoded; split <;> rfl
@[simp] theorem decoded_lastRxUs : (decoded s).lastRxUs = s.lastRxUs := by
  unfold decoded; split <;> rfl
@[simp] theorem decoded_inp : (decoded s).inp = s.inp := by
  unfold decoded; split <;> rfl
@[simp] theorem decoded_out : (decoded s).out = s.out := by
  unfold decoded; split <;> rfl
@[simp] theorem decoded_script : (decoded s).script = s.script := by
  unfold decoded; split <;> rfl
@[simp] theorem decoded_tickNo : (decoded s).tickNo = s.tickNo := by
  unfold decoded; split <;> rfl
@[simp] theorem appended_mode : (appended s).mode = s.mode := by
  unfold appended; simp
@[simp] theorem appended_brLastMs : (appended s).brLastMs = s.brLastMs := by
  unfold appended; simp
@[simp] theorem appended_report : (appended s).report = s.report := by
  unfold appended; simp
@[simp] theorem appended_ready : (appended s).ready = s.ready := by
  unfold appended; simp
@[simp] theorem appended_inp : (appended s).inp = s.inp := by
  unfold appended; simp
@[simp] theorem appended_trace : (appended s).trace = s.trace := by
  unfold appended; simp
@[simp] theorem appended_script : (appended s).script = s.script := by
  unfold appended; simp
@[simp] theorem appended_tickNo : (appended s).tickNo = s.tickNo := by
  unfold appended; simp
@[simp] theorem dispatched_mode : (dispatched s).mode = s.mode := by
  unfold dispatched; split <;> [split <;> rfl; rfl]
@[simp] theorem dispatched_brLastMs : (dispatched s).brLastMs = s.brLastMs := by
  unfold dispatched; split <;> [split <;> rfl; rfl]
@[simp] theorem dispatched_buf : (dispatched s).buf = s.buf := by
  unfold dispatched; split <;> [split <;> rfl; rfl]
@[simp] theorem dispatched_pos : (dispatched s).pos = s.pos := by
  unfold dispatched; split <;> [split <;> rfl; rfl]
@[simp] theorem dispatched_declLen : (dispatched s).declLen = s.declLen := by
  unfold dispatched; split <;> [split <;> rfl; rfl]
@[simp] theorem dispatched_lastRxUs : (dispatched s).lastRxUs = s.lastRxUs := by
  unfold dispatched; split <;> [split <;> rfl; rfl]
@[simp] theorem dispatched_report : (dispatched s).report = s.report := by
  unfold dispatched; split <;> [split <;> rfl; rfl]
@[simp] theorem dispatched_inp : (dispatched s).inp = s.inp := by
  unfold dispatched; split <;> [split <;> rfl; rfl]
@[simp] theorem dispatched_script : (dispatched s).script = s.script := by
  unfold dispatched; split <;> [split <;> rfl; rfl]
@[simp] theorem dispatched_tickNo : (dispatched s).tickNo = s.tickNo := by
  unfold dispatched; split <;> [split <;> rfl; rfl]
@[simp] theorem entered_buf : (entered s).buf = s.buf := rfl
@[simp] theorem entered_pos : (entered s).pos = s.pos := rfl
@[simp] theorem entered_declLen : (entered s).declLen = s.declLen := rfl
@[simp] theorem entered_lastRxUs : (entered s).lastRxUs = s.lastRxUs := rfl
@[simp] theorem entered_report : (entered s).report = s.report := rfl
@[simp] theorem entered_ready : (entered s).ready = s.ready := rfl
@[simp] theorem entered_inp : (entered s).inp = s.inp := rfl
@[simp] theorem entered_out : (entered s).out = s.out := rfl
@[simp] theorem entered_script : (entered s).script = s.script := rfl
@[simp] theorem entered_tickNo : (entered s).tickNo = s.tickNo := rfl
@[simp] theorem relayed_buf : (relayed s).buf = s.buf := by
  unfold relayed; repeat' split
  all_goals rfl
@[simp] theorem relayed_pos : (relayed s).pos = s.pos := by
  unfold relayed; repeat' split
  all_goals rfl
@[simp] theorem relayed_declLen : (relayed s).declLen = s.declLen := by
  unfold relayed; repeat' split
  all_goals rfl
@[simp] theorem relayed_lastRxUs : (relayed s).lastRxUs = s.lastRxUs := by
  unfold relayed; repeat' split
  all_goals rfl
@[simp] theorem relayed_report : (relayed s).report = s.report := by
  unfold relayed; repeat' split
  all_goals rfl
@[simp] theorem relayed_ready : (relayed s).ready = s.ready := by
  unfold relayed; repeat' split
  all_goals rfl
@[simp] theorem relayed_inp : (relayed s).inp = s.inp := by
  unfold relayed; repeat' split
  all_goals rfl
@[simp] theorem relayed_script : (relayed s).script = s.script := by
  unfold relayed; repeat' split
  all_goals rfl
@[simp] theorem relayed_tickNo : (relayed s).tickNo = s.tickNo := by
  unfold relayed; repeat' split
  all_goals rfl
@[simp] theorem arbitrated_buf : (arbitrated s).buf = s.buf := by
  unfold arbitrated; split <;> rfl
@[simp] theorem arbitrated_pos : (arbitrated s).pos = s.pos := by
  unfold arbitrated; split <;> rfl
@[simp] theorem arbitrated_declLen : (arbitrated s).declLen = s.declLen := by
  unfold arbitrated; split <;> rfl
@[simp] theorem arbitrated_lastRxUs : (arbitrated s).lastRxUs = s.lastRxUs := by
  unfold arbitrated; split <;> rfl
@[simp] theorem arbitrated_report : (arbitrated s).report = s.report := by
  unfold arbitrated; split <;> rfl
@[simp] theorem arbitrated_ready : (arbitrated s).ready = s.ready := by
  unfold arbitrated; split <;> rfl
@[simp] theorem arbitrated_inp : (arbitrated s).inp = s.inp := by
  unfold arbitrated; split <;> rfl
@[simp] theorem arbitrated_out : (arbitrated s).out = s.out := by
  unfold arbitrated; split <;> rfl
@[simp] theorem arbitrated_script : (arbitrated s).script = s.script := by
  unfold arbitrated; split <;> rfl
@[simp] theorem arbitrated_tickNo : (arbitrated s).tickNo = s.tickNo := by
  unfold arbitrated; split <;> rfl
@[simp] theorem postAppended_mode : (postAppended s).mode = s.mode := by
  unfold postAppended; split
  · simp
  · split <;> rfl
@[simp] theorem postAppended_brLastMs : (postAppended s).brLastMs = s.brLastMs := by
  unfold postAppended; split
  · simp
  · split <;> rfl
@[simp] theorem postAppended_buf : (postAppended s).buf = s.buf := by
  unfold postAppended; split
  · simp
  · split <;> rfl
@[simp] theorem postAppended_declLen : (postAppended s).declLen = s.declLen := by
  unfold postAppended; split
  · simp
  · split <;> rfl
@[simp] theorem postAppended_lastRxUs : (postAppended s).lastRxUs = s.lastRxUs := by
  unfold postAppended; split
  · simp
  · split <;> rfl
@[simp] theorem postAppended_inp : (postAppended s).inp = s.inp := by
  unfold postAppended; split
  · simp
  · split <;> rfl
@[simp] theorem postAppended_out : (postAppended s).out = s.out := by
  unfold postAppended; split
  · simp
  · split <;> rfl
@[simp] theorem postAppended_script : (postAppended s).script = s.script := by
  unfold postAppended; split
  · simp
  · split <;> rfl
@[simp] theorem postAppended_tickNo : (postAppended s).tickNo = s.tickNo := by
  unfold postAppended; split
  · simp
  · split <;> rfl
@[simp] theorem received_mode : (received s).mode = s.mode := by
  unfold received; split <;> simp
@[simp] theorem received_brLastMs : (received s).brLastMs = s.brLastMs := by
  unfold received; split <;> simp
@[simp] theorem received_inp : (received s).inp = s.inp := by
  unfold received; split <;> simp
@[simp] theorem received_script : (received s).script = s.script := by
  unfold received; split <;> simp
@[simp] theorem received_tickNo : (received s).tickNo = s.tickNo := by
  unfold received; split <;> simp
@[simp] theorem rcResult_mode : (rcResult s).mode = s.mode := by
  unfold rcResult; simp
@[simp] theorem rcResult_brLastMs : (rcResult s).brLastMs = s.brLastMs := by
  unfold rcResult; simp
@[simp] theorem rcResult_inp : (rcResult s).inp = s.inp := by
  unfold rcResult; simp
@[simp] theorem rcResult_script : (rcResult s).script = s.script := by
  unfold rcResult; simp
@[simp] theorem rcResult_tickNo : (rcResult s).tickNo = s.tickNo := by
  unfold rcResult; simp

/-! The written elements -/

theorem gapChecked_pos : (gapChecked s).pos = if flagGap cfg s then 0 else s.pos := by
  unfold gapChecked; split <;> rfl

theorem gapChecked_trace : (gapChecked s).trace = s.trace ++ if flagGap cfg s then [.rxGapReset] else [] := by
  unfold gapChecked; split <;> simp

theorem gapChecked_fired : (gapChecked s).fired = s.fired ++ fire .rxg s := by
  rw [fire_rxg]
  unfold gapChecked
  split <;> simp

@[simp] theorem gapChecked_bufRead (a : Nat) : (gapChecked s).bufRead a = s.bufRead a := by
  unfold State.bufRead; simp

@[simp] theorem payload_congr {s t : State} (h : s.buf = t.buf) : s.payload = t.payload := by
  unfold State.payload State.bufRead
  rw [h]

theorem decoded_report : (decoded s).report =
    if headerAccepted s then reportOf cfg (unpack cfg s.payload) else s.report := by
  unfold decoded
  split
  · simp only [State.event_report, State.setReady_report, State.setReport_report]
  · rfl

theorem decoded_ready : (decoded s).ready = if headerAccepted s then true else s.ready := by
  unfold decoded; split <;> rfl

theorem decoded_trace : (decoded s).trace = s.trace ++ if headerAccepted s then [.decAcceptRc] else [.decIgnore] := by
  unfold decoded; split <;> rfl

theorem decoded_fired : (decoded s).fired = s.fired ++ fire .hdr s := by
  rw [fire_hdr]
  unfold decoded
  split <;> rfl

@[simp] theorem appended_pos : (appended s).pos = s.pos + 1 := by unfold appended; simp
@[simp] theorem appended_lastRxUs : (appended s).lastRxUs = s.inp.nowUs := by unfold appended; simp
@[simp] theorem appended_buf : (appended s).buf = Memory.write s.buf s.pos s.inp.uartRxData := by unfold appended; simp
@[simp] theorem appended_out : (appended s).out = { s.out with uartRxPop := true } := by unfold appended; simp
@[simp] theorem appended_fired : (appended s).fired = s.fired ++ [.rxAppend] := by unfold appended; simp
theorem appended_declLen : (appended s).declLen = if s.pos = 1 then s.inp.uartRxData else s.declLen := by
  unfold appended; simp

theorem dispatched_ready : (dispatched s).ready = false := by
  unfold dispatched
  split
  · split <;> rfl
  · simpa using ‹¬s.ready = true›

theorem dispatched_trace : (dispatched s).trace =
    s.trace ++ if s.ready then (if s.inp.hidReady then [.dispSend] else [.dispDrop]) else [] := by
  unfold dispatched
  split
  · split <;> rfl
  · simp

theorem dispatched_fired : (dispatched s).fired = s.fired ++ fire .dsp s := by
  rw [fire_dsp]
  unfold dispatched
  split
  · split <;> rfl
  · rfl

theorem dispatched_out : (dispatched s).out =
    if s.ready = true ∧ s.inp.hidReady = true then
      { s.out with hidSend := true, hidReportId := cfg.reportId, hidReport := reportBytes cfg s.report }
    else s.out := by
  unfold dispatched
  by_cases h1 : s.ready = true <;> by_cases h2 : s.inp.hidReady = true <;> simp [h1, h2]

@[simp] theorem entered_mode : (entered s).mode = .bridging := rfl
@[simp] theorem entered_brLastMs : (entered s).brLastMs = s.inp.nowMs := rfl
@[simp] theorem entered_trace : (entered s).trace = s.trace ++ [.arbEnter] := rfl
@[simp] theorem entered_fired : (entered s).fired = s.fired ++ [.arbEnter] := rfl

theorem arbitrated_mode : (arbitrated s).mode = .bridging := by
  unfold arbitrated
  split
  · exact flagMode_iff.mp ‹_›
  · rfl

theorem arbitrated_brLastMs : (arbitrated s).brLastMs = if flagMode s then s.brLastMs else s.inp.nowMs := by
  unfold arbitrated; split <;> rfl

theorem arbitrated_trace : (arbitrated s).trace = s.trace ++ if flagMode s then [] else [.arbEnter] := by
  unfold arbitrated; split <;> simp

theorem arbitrated_fired (hb : onBridge s) : (arbitrated s).fired = s.fired ++ fire .arb s := by
  rw [fire_arb]
  unfold arbitrated
  split
  · rfl
  · rcases hb with h | h
    · exact absurd (flagMode_iff.mpr h) ‹_›
    · rw [if_pos h]
      rfl

/-- In the entry tick the bridge timeout has not run (44_arbiter.md R182 corner case 4). -/
theorem entered_bto : flagBto cfg (entered s) = false := by
  simp [flagBto, cfg, elapsed32]

theorem relayed_mode : (relayed s).mode =
    if flagU2sGo s = false ∧ flagS2uGo s = false ∧ flagBto cfg s = true then .idle else s.mode := by
  unfold relayed
  cases h1 : flagU2sGo s <;> cases h2 : flagS2uGo s <;> cases h3 : flagBto cfg s <;> rfl

theorem relayed_brLastMs : (relayed s).brLastMs =
    if flagU2sGo s = true ∨ flagS2uGo s = true then s.inp.nowMs else s.brLastMs := by
  unfold relayed
  cases h1 : flagU2sGo s <;> cases h2 : flagS2uGo s <;> cases h3 : flagBto cfg s <;> rfl

theorem relayed_trace : (relayed s).trace = s.trace ++
    if flagU2sGo s then (if flagS2uGo s then [.brU2s, .brS2u] else [.brU2s])
    else if flagS2uGo s then [.brS2u] else if flagBto cfg s then [.arbExit] else [.brHold] := by
  unfold relayed
  cases h1 : flagU2sGo s <;> cases h2 : flagS2uGo s <;> cases h3 : flagBto cfg s <;> simp [movedU2s, movedS2u]

theorem relayed_fired : (relayed s).fired = s.fired ++ fire .br s := by
  rw [fire_br]
  unfold relayed
  cases h1 : flagU2sGo s <;> cases h2 : flagS2uGo s <;> cases h3 : flagBto cfg s <;> simp [movedU2s, movedS2u]

theorem relayed_out : (relayed s).out =
    { s.out with
      vserRxPop := flagU2sGo s || s.out.vserRxPop
      uartTxValid := flagU2sGo s || s.out.uartTxValid
      uartTxData := if flagU2sGo s then s.inp.vserRxData else s.out.uartTxData
      uartRxPop := flagS2uGo s || s.out.uartRxPop
      vserTxValid := flagS2uGo s || s.out.vserTxValid
      vserTxData := if flagS2uGo s then s.inp.uartRxData else s.out.vserTxData } := by
  unfold relayed
  cases h1 : flagU2sGo s <;> cases h2 : flagS2uGo s <;> cases h3 : flagBto cfg s <;> simp [movedU2s, movedS2u]

/-- The relay leaves the receiver's, decoder's and dispatcher's elements alone (44_arbiter.md R188). -/
theorem relayed_sameRc : SameRc s (relayed (arbitrated s)) := by
  constructor <;> simp

theorem postAppended_pos : (postAppended s).pos = if flagDone s ∨ flagFull cfg s then 0 else s.pos := by
  unfold postAppended
  cases h1 : flagDone s <;> cases h2 : flagFull cfg s <;> simp

theorem postAppended_report : (postAppended s).report =
    if flagDone s ∧ headerAccepted s then reportOf cfg (unpack cfg s.payload) else s.report := by
  unfold postAppended
  cases h1 : flagDone s
  · cases h2 : flagFull cfg s <;> simp
  · simp only [if_true, State.setPos_report, decoded_report, true_and]
    rfl

theorem postAppended_ready : (postAppended s).ready = if flagDone s ∧ headerAccepted s then true else s.ready := by
  unfold postAppended
  cases h1 : flagDone s
  · cases h2 : flagFull cfg s <;> simp
  · simp only [if_true, State.setPos_ready, decoded_ready, true_and]
    rfl

theorem postAppended_trace : (postAppended s).trace = s.trace ++
    if flagDone s then (if headerAccepted s then [.rxComplete, .decAcceptRc] else [.rxComplete, .decIgnore])
    else if flagFull cfg s then [.rxOverflow] else [] := by
  unfold postAppended
  cases h1 : flagDone s
  · cases h2 : flagFull cfg s <;> simp
  · have key : headerAccepted ((s.noteOp (.rxComplete (flagFull cfg s))).event .rxComplete) ↔ headerAccepted s := Iff.rfl
    simp only [if_true, State.setPos_trace, decoded_trace, State.event_trace, State.noteOp_trace, key]
    by_cases h : headerAccepted s
    · rw [if_pos h, if_pos h]
      simp
    · rw [if_neg h, if_neg h]
      simp

theorem postAppended_fired : (postAppended s).fired =
    s.fired ++ fire .rxp s ++ if flagDone s then fire .hdr s else [] := by
  rw [fire_rxp]
  unfold postAppended
  cases h1 : flagDone s
  · cases h2 : flagFull cfg s <;> simp
  · have key : fire .hdr ((s.noteOp (.rxComplete (flagFull cfg s))).event .rxComplete) = fire .hdr s := rfl
    simp only [if_true, State.setPos_fired, decoded_fired, State.event_fired, State.noteOp_fired, key]

theorem received_fired : (received s).fired = s.fired ++ fire .rxb s ++
    if s.inp.uartRxValid then fire .rxp (appended s) ++ (if flagDone (appended s) then fire .hdr (appended s) else [])
    else [] := by
  rw [fire_rxb]
  unfold received
  split
  · rw [postAppended_fired, appended_fired, List.append_assoc]
  · simp

/-- Every operation of an RC-path tick, in order (40_tick.md R103). -/
theorem rcResult_fired : (rcResult s).fired = s.fired ++ [.arbIdleRc] ++ fire .rxg (s.noteOp .arbIdleRc) ++
    fire .rxb (gapChecked (s.noteOp .arbIdleRc)) ++
    (if (gapChecked (s.noteOp .arbIdleRc)).inp.uartRxValid then
      fire .rxp (appended (gapChecked (s.noteOp .arbIdleRc))) ++
        (if flagDone (appended (gapChecked (s.noteOp .arbIdleRc))) then
          fire .hdr (appended (gapChecked (s.noteOp .arbIdleRc))) else [])
    else []) ++ fire .dsp (received (gapChecked (s.noteOp .arbIdleRc))) := by
  unfold rcResult
  rw [dispatched_fired, received_fired, gapChecked_fired, State.noteOp_fired]

@[simp] theorem postAppended_bufRead (a : Nat) : (postAppended s).bufRead a = s.bufRead a := by
  unfold State.bufRead; simp

@[simp] theorem dispatched_bufRead (a : Nat) : (dispatched s).bufRead a = s.bufRead a := by
  unfold State.bufRead; simp

/-- What RX_APPEND leaves in each byte of a canonical buffer (41_receiver.md R122). -/
theorem appended_bufRead (hw : Memory.wf s.buf = true) (a : Nat) :
    (appended s).bufRead a = if a = s.pos then s.inp.uartRxData else s.bufRead a := by
  unfold State.bufRead
  rw [appended_buf]
  exact Memory.read_write hw _ _ _

theorem wasReset_fields : (wasReset s).mode = .idle ∧ (wasReset s).brLastMs = 0 ∧ (wasReset s).buf = [] ∧
    (wasReset s).pos = 0 ∧ (wasReset s).declLen = 0x00 ∧ (wasReset s).lastRxUs = 0 ∧
    (wasReset s).report = Report.zero ∧ (wasReset s).ready = false ∧ (wasReset s).out = Outputs.defaults ∧
    (wasReset s).trace = s.trace ++ [.reset] ∧ (wasReset s).fired = s.fired ++ [.reset] ∧ (wasReset s).inp = s.inp ∧
    (wasReset s).script = s.script ∧ (wasReset s).tickNo = s.tickNo :=
  ⟨rfl, rfl, rfl, rfl, rfl, rfl, rfl, rfl, rfl, rfl, rfl, rfl, rfl, rfl⟩
end

end Sys2Proof.Machine
end

