-- ==== Sys2Proof/Laws/Paths.lean ====
section
/-! SUPPORT. The ticks the receiver's and the arbiter's laws are made of: a byte appended, no byte, a gap, and a
bridge-path tick (40_tick.md R103). -/
namespace Sys2Proof.Machine

/-- The state an RC-path tick works on after the arbiter. -/
abbrev rcStart (s : State) : State := s.beginTick.noteOp .arbIdleRc

/-- An RC-path tick that takes a byte (40_tick.md R103). -/
theorem rcResult_byte {s : State} (h : s.nextInputs.uartRxValid = true) :
    rcResult s.beginTick = dispatched (postAppended (appended (gapChecked (rcStart s)))) := by
  unfold rcResult received
  rw [if_pos (by simpa using h)]

/-- An RC-path tick without a byte (40_tick.md R103). -/
theorem rcResult_no_byte {s : State} (h : s.nextInputs.uartRxValid = false) :
    rcResult s.beginTick = dispatched ((gapChecked (rcStart s)).noteOp .rxNop) := by
  unfold rcResult received
  rw [if_neg (by simp [h])]

/-- Which operations an RC-path tick performs (40_tick.md R103). -/
theorem mem_rcResult_fired {s : State} {i : Instr} : i ∈ (rcResult s.beginTick).fired ↔
    i = .arbIdleRc ∨ (flagGap cfg (rcStart s) = true ∧ i = .rxGapReset) ∨
    (s.nextInputs.uartRxValid = true ∧ i = .rxAppend) ∨ (s.nextInputs.uartRxValid = false ∧ i = .rxNop) ∨
    (s.nextInputs.uartRxValid = true ∧ (i ∈ fire .rxp (appended (gapChecked (rcStart s))) ∨
      flagDone (appended (gapChecked (rcStart s))) = true ∧ i ∈ fire .hdr (appended (gapChecked (rcStart s))))) ∨
    i ∈ fire .dsp (received (gapChecked (rcStart s))) := by
  rw [rcResult_fired]
  simp only [List.mem_append, State.beginTick_fired, List.mem_singleton, List.not_mem_nil, false_or, mem_fire_rxg,
    mem_fire_rxb, gapChecked_inp, State.noteOp_inp, State.beginTick_inp]
  cases hu : s.nextInputs.uartRxValid <;> cases hd : flagDone (appended (gapChecked (rcStart s))) <;>
    simp [List.mem_append, or_assoc]

/-- Which operations a bridge-path tick performs (40_tick.md R103). -/
theorem mem_bridge_fired {s : State} {i : Instr} (hb : onBridge s.beginTick) :
    i ∈ (relayed (arbitrated s.beginTick)).fired ↔
      i ∈ fire .arb s.beginTick ∨ i ∈ fire .br (arbitrated s.beginTick) := by
  rw [relayed_fired, arbitrated_fired _ hb]
  simp only [List.mem_append, State.beginTick_fired, List.not_mem_nil, false_or]

/-- A frame that completes in a tick had no gap before its last byte (41_receiver.md R120). -/
theorem done_not_gap {s : State} (h : flagDone (appended (gapChecked s)) = true) : flagGap cfg s = false := by
  rw [flagDone_iff, appended_pos, gapChecked_pos] at h
  by_contra hc
  rw [if_pos (by simpa using hc)] at h
  omega

/-- A buffer that fills in a tick had no gap before its last byte (41_receiver.md R120). -/
theorem full_not_gap {s : State} (h : flagFull cfg (appended (gapChecked s)) = true) : flagGap cfg s = false := by
  rw [flagFull_iff, appended_pos, gapChecked_pos] at h
  by_contra hc
  rw [if_pos (by simpa using hc)] at h
  exact absurd h (by decide)

/-- Everything an RC-path tick with no report pending can leave in the trace (60_exceptions.md R204). -/
theorem rcResult_trace {s : State} (h : s.ready = false) : (rcResult s.beginTick).trace =
    if s.nextInputs.uartRxValid && flagDone (appended (gapChecked (rcStart s))) then
      (if headerAccepted (appended (gapChecked (rcStart s))) then
        [.rxComplete, .decAcceptRc, if s.nextInputs.hidReady then .dispSend else .dispDrop]
      else [.rxComplete, .decIgnore])
    else if s.nextInputs.uartRxValid && flagFull cfg (appended (gapChecked (rcStart s))) then [.rxOverflow]
    else if flagGap cfg (rcStart s) then [.rxGapReset] else [] := by
  cases hu : s.nextInputs.uartRxValid
  · rw [rcResult_no_byte hu, dispatched_trace, State.noteOp_trace, gapChecked_trace]
    simp [h]
  · rw [rcResult_byte hu, dispatched_trace, postAppended_trace, postAppended_ready, appended_trace, gapChecked_trace]
    cases hd : flagDone (appended (gapChecked (rcStart s)))
    · cases hf : flagFull cfg (appended (gapChecked (rcStart s)))
      · simp [h]
      · simp [full_not_gap hf, h]
    · cases hh : headerAccepted (appended (gapChecked (rcStart s))) <;> cases hi : s.nextInputs.hidReady <;>
        simp [done_not_gap hd, h, hi]

/-- A report is pending after stages D and E exactly when the tick's frame was decoded (43_dispatcher.md R173). -/
theorem received_ready {s : State} (h : s.ready = false) : (received s).ready =
    (s.inp.uartRxValid && flagDone (appended s) && headerAccepted (appended s)) := by
  unfold received
  cases s.inp.uartRxValid
  · simp [h]
  · rw [if_pos rfl, postAppended_ready]
    cases flagDone (appended s) <;> cases headerAccepted (appended s) <;> simp [h]

/-- An RC-path tick sends exactly when a report is pending and the endpoint is ready (43_dispatcher.md R171). -/
theorem rcResult_hidSend (s : State) : (rcResult s.beginTick).out.hidSend =
    ((received (gapChecked (rcStart s))).ready && s.nextInputs.hidReady) := by
  unfold rcResult
  rw [dispatched_out, received_inp]
  have h : (received (gapChecked (s.beginTick.noteOp .arbIdleRc))).out.hidSend = false := by
    unfold received; split <;> simp [Outputs.defaults]
  cases h1 : (received (gapChecked (s.beginTick.noteOp .arbIdleRc))).ready <;>
    cases h2 : s.nextInputs.hidReady <;> simp [h2, h]

/-- A bridge-path tick neither decodes nor sends (44_arbiter.md R188). -/
theorem bridge_no_report (s : State) : .decAcceptRc ∉ (relayed (arbitrated s.beginTick)).trace ∧
    .dispSend ∉ (relayed (arbitrated s.beginTick)).trace := by
  rw [relayed_trace, arbitrated_trace]
  cases flagMode s.beginTick <;> cases flagU2sGo (arbitrated s.beginTick) <;>
    cases flagS2uGo (arbitrated s.beginTick) <;> cases flagBto cfg (arbitrated s.beginTick) <;> simp

/-- No gap: stage C leaves the state (41_receiver.md R120). -/
theorem gapChecked_of_no_gap {b : State} (h : flagGap cfg b = false) : gapChecked b = b := by
  unfold gapChecked
  rw [h]
  rfl

/-- An attempt that has not begun has no gap (41_receiver.md R120 corner case 2). -/
theorem flagGap_of_pos_zero {b : State} (h : b.pos = 0) : flagGap cfg b = false := by
  simp [flagGap, h]

/-- An RC-path tick that appends its byte with no gap before it. -/
theorem step_append {s : State} (hr : s.nextInputs.rst = false) (hm : s.mode = .idle)
    (hv : s.nextInputs.vserRxValid = false) (hu : s.nextInputs.uartRxValid = true) (hp : s.pos < cfg.bufCap)
    (hg : flagGap cfg (rcStart s) = false) :
    step s = .next (dispatched (postAppended (appended (rcStart s)))) := by
  rw [step_rc hr hm hv fun _ => by rw [gapChecked_of_no_gap hg]; exact hp]
  unfold rcResult received
  rw [gapChecked_of_no_gap hg, if_pos (by simpa using hu)]

/-- An RC-path tick without a byte and without a gap. -/
theorem step_no_byte {s : State} (hr : s.nextInputs.rst = false) (hm : s.mode = .idle)
    (hv : s.nextInputs.vserRxValid = false) (hu : s.nextInputs.uartRxValid = false)
    (hg : flagGap cfg (rcStart s) = false) :
    step s = .next (dispatched ((rcStart s).noteOp .rxNop)) := by
  rw [step_rc hr hm hv fun h => by rw [hu] at h; cases h]
  unfold rcResult received
  rw [gapChecked_of_no_gap hg, if_neg (by simp [hu])]

/-- An RC-path tick that finds a gap. -/
theorem step_gap {s : State} (hr : s.nextInputs.rst = false) (hm : s.mode = .idle)
    (hv : s.nextInputs.vserRxValid = false) (hg : flagGap cfg (rcStart s) = true) :
    step s = .next (dispatched (received (((rcStart s).noteOp .rxGapReset).setPos 0 |>.event .rxGapReset))) := by
  have hc : gapChecked (rcStart s) = (((rcStart s).noteOp .rxGapReset).setPos 0).event .rxGapReset := by
    unfold gapChecked
    rw [hg]
    rfl
  rw [step_rc hr hm hv fun _ => by rw [hc]; exact Nat.zero_lt_succ 66]
  unfold rcResult
  rw [hc]

/-- A bridge-path tick, once: it completes, it leaves the RC elements alone and sends no report, and its mode, timer and
trace are those of the arbiter and the relay (44_arbiter.md R180 to R188). -/
theorem step_bridge_facts {s : State} (hr : s.nextInputs.rst = false)
    (hb : s.mode = .bridging ∨ s.nextInputs.vserRxValid = true) :
    ∃ t, step s = .next t ∧ SameRc s t ∧ t.out.hidSend = false ∧ t.inp = s.nextInputs ∧ t.script = s.script.tail ∧
      (byteMoves s.nextInputs = true → t.mode = .bridging ∧ t.brLastMs = s.nextInputs.nowMs) ∧
      (byteMoves s.nextInputs = false → s.mode = .idle →
        t.mode = .bridging ∧ t.brLastMs = s.nextInputs.nowMs ∧ t.trace = [.arbEnter, .brHold]) ∧
      (byteMoves s.nextInputs = false → s.mode = .bridging →
        t.brLastMs = s.brLastMs ∧ t.out = Outputs.defaults ∧
        (elapsed32 s.nextInputs.nowMs s.brLastMs < cfg.bridgeIdleMs → t.mode = .bridging ∧ t.trace = [.brHold]) ∧
        (cfg.bridgeIdleMs ≤ elapsed32 s.nextInputs.nowMs s.brLastMs → t.mode = .idle ∧ t.trace = [.arbExit])) ∧
      (s.mode = .idle → .arbEnter ∈ t.trace) := by
  have hmoves : byteMoves s.nextInputs =
      (flagU2sGo (arbitrated s.beginTick) || flagS2uGo (arbitrated s.beginTick)) := by
    rw [← byteMoves_eq, arbitrated_inp, State.beginTick_inp]
  have hsame : SameRc s (relayed (arbitrated s.beginTick)) := by
    constructor <;> simp
  have hbto : s.mode = .idle → flagBto cfg (arbitrated s.beginTick) = false := by
    intro hm
    unfold arbitrated
    rw [if_neg (by simp [flagMode_idle hm])]
    exact entered_bto _
  have hbto' : s.mode = .bridging → (flagBto cfg (arbitrated s.beginTick) = true ↔
      cfg.bridgeIdleMs ≤ elapsed32 s.nextInputs.nowMs s.brLastMs) := by
    intro hm
    rw [flagBto_iff, arbitrated_inp, arbitrated_brLastMs, flagMode_beginTick, if_pos (flagMode_bridging hm), State.beginTick_inp,
      State.beginTick_brLastMs]
  refine ⟨_, step_bridge hr hb, hsame, ?_, by simp, by simp, ?_, ?_, ?_, ?_⟩
  · rw [relayed_out]
    simp [Outputs.defaults]
  · intro h
    rw [hmoves, Bool.or_eq_true] at h
    rw [relayed_mode, relayed_brLastMs, if_pos h, if_neg, arbitrated_mode, arbitrated_inp, State.beginTick_inp]
    · exact ⟨rfl, rfl⟩
    · rintro ⟨h1, h2, _⟩
      rw [h1, h2] at h
      exact h.elim Bool.false_ne_true Bool.false_ne_true
  · intro h hm
    rw [hmoves, Bool.or_eq_false_iff] at h
    rw [relayed_mode, relayed_brLastMs, relayed_trace, arbitrated_mode, arbitrated_brLastMs, arbitrated_trace, h.1, h.2,
      hbto hm]
    simp [flagMode_idle hm]
  · intro h hm
    rw [hmoves, Bool.or_eq_false_iff] at h
    have hb' := hbto' hm
    refine ⟨?_, ?_, ?_, ?_⟩
    · rw [relayed_brLastMs, arbitrated_brLastMs, h.1, h.2]
      simp [flagMode_bridging hm]
    · rw [relayed_out, h.1, h.2]
      simp
    · intro he
      have hf : flagBto cfg (arbitrated s.beginTick) = false := by
        rw [← Bool.not_eq_true, hb']
        omega
      rw [relayed_mode, relayed_trace, arbitrated_mode, arbitrated_trace, h.1, h.2, hf]
      simp [flagMode_bridging hm]
    · intro he
      rw [relayed_mode, relayed_trace, arbitrated_trace, h.1, h.2, hb'.mpr he]
      simp [flagMode_bridging hm]
  · intro hm
    rw [relayed_trace, arbitrated_trace]
    simp [flagMode_idle hm]

end Sys2Proof.Machine
end

