-- ==== Sys2Proof/Laws/Attempts.lean ====
section
/-! SUPPORT. One tick of a frame attempt: without a byte, with a byte that leaves it open, that completes it, or that
fills the buffer (41_receiver.md R120 to R129). -/
namespace Sys2Proof.Machine

/-- The tick's input vector neither resets, nor opens a bridge session, nor finds a gap (41_receiver.md R127). -/
structure KeepsAttempt (s : State) (i : Inputs) (is : List Inputs) : Prop where
  script : s.script = i :: is
  mode : s.mode = .idle
  rst : i.rst = false
  vser : i.vserRxValid = false
  no_gap : s.pos = 0 ∨ elapsed32 i.nowUs s.lastRxUs ≤ cfg.gapUs

theorem KeepsAttempt.gap {s : State} {i : Inputs} {is : List Inputs} (h : KeepsAttempt s i is) :
    flagGap cfg (rcStart s) = false := by
  rw [← Bool.not_eq_true, flagGap_iff]
  rintro ⟨h1, h2⟩
  rcases h.no_gap with h3 | h3
  · exact h1 h3
  · have : cfg.gapUs < elapsed32 s.nextInputs.nowUs s.lastRxUs := h2
    rw [nextInputs_cons h.script] at this
    omega

/-- The declared length a tick's byte leaves is the attempt's second byte (41_receiver.md R122). -/
def State.lengthAfter (s : State) (b : Byte) : Byte := if s.pos = 1 then b else s.declLen

/-- A tick without a byte leaves the attempt as it is. -/
theorem attempt_wait {s : State} {i : Inputs} {is : List Inputs} (hs : AtBoundary s) (h : KeepsAttempt s i is)
    (hu : i.uartRxValid = false) :
    ∃ t, step s = .next t ∧ t.trace = [] ∧ t.mode = .idle ∧ t.pos = s.pos ∧ t.declLen = s.declLen ∧
      t.lastRxUs = s.lastRxUs ∧ t.report = s.report ∧ t.script = is ∧ ∀ a, t.bufRead a = s.bufRead a := by
  have hi := nextInputs_cons h.script
  refine ⟨_, step_no_byte (hi ▸ h.rst) h.mode (hi ▸ h.vser) (hi ▸ hu) h.gap, ?_, ?_, ?_, ?_, ?_, ?_, ?_, ?_⟩
  · rw [dispatched_trace]
    simp [hs.not_ready]
  · simpa using h.mode
  · simp
  · simp
  · simp
  · simp
  · simp [h.script]
  · intro a
    unfold State.bufRead
    simp

/-- The fields every tick with a byte leaves, whatever stage E does. -/
theorem attempt_byte {s : State} {i : Inputs} {is : List Inputs} (hs : AtBoundary s) (h : KeepsAttempt s i is)
    (hu : i.uartRxValid = true) :
    step s = .next (dispatched (postAppended (appended (rcStart s)))) ∧
      (appended (rcStart s)).pos = s.pos + 1 ∧
      (appended (rcStart s)).declLen = s.lengthAfter i.uartRxData ∧
      (flagDone (appended (rcStart s)) = true ↔ 2 ≤ s.pos + 1 ∧ s.pos + 1 = (s.lengthAfter i.uartRxData).toNat + 2) ∧
      (flagFull cfg (appended (rcStart s)) = true ↔ s.pos + 1 = cfg.bufCap) ∧
      ∀ t, t = dispatched (postAppended (appended (rcStart s))) → t.mode = .idle ∧ t.lastRxUs = i.nowUs ∧ t.script = is ∧
        ∀ a, t.bufRead a = if a = s.pos then i.uartRxData else s.bufRead a := by
  have hi := nextInputs_cons h.script
  have hd : (appended (rcStart s)).declLen = s.lengthAfter i.uartRxData := by
    rw [appended_declLen]
    simp [State.lengthAfter, hi]
  refine ⟨step_append (hi ▸ h.rst) h.mode (hi ▸ h.vser) (hi ▸ hu) hs.pos_lt h.gap, by simp, hd, ?_, ?_, ?_⟩
  · rw [flagDone_iff, hd, appended_pos]
    rfl
  · rw [flagFull_iff, appended_pos]
    rfl
  · rintro t rfl
    refine ⟨by simpa using h.mode, by simp [hi], by simp [h.script], fun a => ?_⟩
    rw [dispatched_bufRead, postAppended_bufRead, appended_bufRead _ (by simpa using hs.canonical)]
    simp [hi]

/-- A byte that neither completes the frame nor fills the buffer (41_receiver.md R126). -/
theorem attempt_continue {s : State} {i : Inputs} {is : List Inputs} (hs : AtBoundary s) (h : KeepsAttempt s i is)
    (hu : i.uartRxValid = true)
    (hd : ¬(2 ≤ s.pos + 1 ∧ s.pos + 1 = (s.lengthAfter i.uartRxData).toNat + 2)) (hf : s.pos + 1 ≠ cfg.bufCap) :
    ∃ t, step s = .next t ∧ t.trace = [] ∧ t.mode = .idle ∧ t.pos = s.pos + 1 ∧
      t.declLen = s.lengthAfter i.uartRxData ∧ t.lastRxUs = i.nowUs ∧ t.report = s.report ∧ t.script = is ∧
      ∀ a, t.bufRead a = if a = s.pos then i.uartRxData else s.bufRead a := by
  obtain ⟨h1, h2, h3, h4, h5, h6⟩ := attempt_byte hs h hu
  obtain ⟨h7, h8, h9, h10⟩ := h6 _ rfl
  have hd' : flagDone (appended (rcStart s)) = false := by rw [← Bool.not_eq_true, h4]; exact hd
  have hf' : flagFull cfg (appended (rcStart s)) = false := by rw [← Bool.not_eq_true, h5]; exact hf
  refine ⟨_, h1, ?_, h7, ?_, ?_, h8, ?_, h9, h10⟩
  · rw [dispatched_trace, postAppended_trace, postAppended_ready, hd', hf']
    simp [hs.not_ready]
  · rw [dispatched_pos, postAppended_pos, hd', hf']
    simp
  · rw [dispatched_declLen, postAppended_declLen, h3]
  · rw [dispatched_report, postAppended_report, hd']
    simp

/-- A byte that fills the buffer without completing the frame (41_receiver.md R125). -/
theorem attempt_overflow {s : State} {i : Inputs} {is : List Inputs} (hs : AtBoundary s) (h : KeepsAttempt s i is)
    (hu : i.uartRxValid = true)
    (hd : ¬(2 ≤ s.pos + 1 ∧ s.pos + 1 = (s.lengthAfter i.uartRxData).toNat + 2)) (hf : s.pos + 1 = cfg.bufCap) :
    ∃ t, step s = .next t ∧ t.trace = [.rxOverflow] ∧ t.mode = .idle ∧ t.pos = 0 ∧ t.report = s.report ∧
      t.script = is := by
  obtain ⟨h1, h2, h3, h4, h5, h6⟩ := attempt_byte hs h hu
  obtain ⟨h7, h8, h9, h10⟩ := h6 _ rfl
  have hd' : flagDone (appended (rcStart s)) = false := by rw [← Bool.not_eq_true, h4]; exact hd
  have hf' : flagFull cfg (appended (rcStart s)) = true := h5.mpr hf
  refine ⟨_, h1, ?_, h7, ?_, ?_, h9⟩
  · rw [dispatched_trace, postAppended_trace, postAppended_ready, hd', hf']
    simp [hs.not_ready]
  · rw [dispatched_pos, postAppended_pos, hd', hf']
    simp
  · rw [dispatched_report, postAppended_report, hd']
    simp

/-- A byte that completes the frame (41_receiver.md R124). -/
theorem attempt_complete {s : State} {i : Inputs} {is : List Inputs} (hs : AtBoundary s) (h : KeepsAttempt s i is)
    (hu : i.uartRxValid = true)
    (hd : 2 ≤ s.pos + 1 ∧ s.pos + 1 = (s.lengthAfter i.uartRxData).toNat + 2) :
    ∃ t, step s = .next t ∧ t.mode = .idle ∧ t.pos = 0 ∧ t.script = is ∧
      (∀ a, t.bufRead a = if a = s.pos then i.uartRxData else s.bufRead a) ∧
      (headerAccepted t = false → t.trace = [.rxComplete, .decIgnore] ∧ t.report = s.report) ∧
      (headerAccepted t = true → t.report = reportOf cfg (unpack cfg t.payload) ∧
        (i.hidReady = false → t.trace = [.rxComplete, .decAcceptRc, .dispDrop]) ∧
        (i.hidReady = true → t.trace = [.rxComplete, .decAcceptRc, .dispSend] ∧ t.out.hidSend = true ∧
          t.out.hidReportId = cfg.reportId ∧ t.out.hidReport = reportBytes cfg t.report)) := by
  obtain ⟨h1, h2, h3, h4, h5, h6⟩ := attempt_byte hs h hu
  obtain ⟨h7, h8, h9, h10⟩ := h6 _ rfl
  have hi := nextInputs_cons h.script
  have hd' : flagDone (appended (rcStart s)) = true := h4.mpr hd
  have ha : headerAccepted (dispatched (postAppended (appended (rcStart s)))) = headerAccepted (appended (rcStart s)) := by
    unfold headerAccepted
    simp only [dispatched_bufRead, postAppended_bufRead]
  have hp : (dispatched (postAppended (appended (rcStart s)))).payload = (appended (rcStart s)).payload :=
    payload_congr (by simp)
  have hr : (dispatched (postAppended (appended (rcStart s)))).report =
      if headerAccepted (appended (rcStart s)) then reportOf cfg (unpack cfg (appended (rcStart s)).payload)
      else s.report := by
    rw [dispatched_report, postAppended_report, hd']
    simp
  have ht : (dispatched (postAppended (appended (rcStart s)))).trace =
      if headerAccepted (appended (rcStart s)) then
        [.rxComplete, .decAcceptRc] ++ if i.hidReady then [.dispSend] else [.dispDrop]
      else [.rxComplete, .decIgnore] := by
    rw [dispatched_trace, postAppended_trace, postAppended_ready, hd']
    cases headerAccepted (appended (rcStart s)) <;> simp [hs.not_ready, hi]
  have ho : headerAccepted (appended (rcStart s)) = true → i.hidReady = true →
      (dispatched (postAppended (appended (rcStart s)))).out.hidSend = true ∧
      (dispatched (postAppended (appended (rcStart s)))).out.hidReportId = cfg.reportId ∧
      (dispatched (postAppended (appended (rcStart s)))).out.hidReport =
        reportBytes cfg (dispatched (postAppended (appended (rcStart s)))).report := by
    intro hh hrd
    rw [dispatched_out, dispatched_report, if_pos]
    · exact ⟨rfl, rfl, rfl⟩
    · rw [postAppended_ready, hd', hh]
      simp [hi, hrd]
  refine ⟨_, h1, h7, ?_, h9, h10, ?_, ?_⟩
  · rw [dispatched_pos, postAppended_pos, hd']
    simp
  · intro hh
    rw [ha] at hh
    rw [ht, hr, hh]
    exact ⟨rfl, rfl⟩
  · intro hh
    rw [ha] at hh
    refine ⟨?_, ?_, ?_⟩
    · rw [hr, hh, hp]
      rfl
    · intro hrd
      rw [ht, hh, hrd]
      rfl
    · intro hrd
      refine ⟨?_, ho hh hrd⟩
      rw [ht, hh, hrd]
      rfl

@[simp] theorem uartBytes_nil : uartBytes [] = [] := rfl

theorem uartBytes_cons (i : Inputs) (is : List Inputs) :
    uartBytes (i :: is) = (if i.uartRxValid then [i.uartRxData] else []) ++ uartBytes is := by
  unfold uartBytes
  cases h : i.uartRxValid <;> simp [h]

theorem uartBytes_append (is js : List Inputs) : uartBytes (is ++ js) = uartBytes is ++ uartBytes js := by
  simp [uartBytes]

end Sys2Proof.Machine
end

