-- ==== Sys2Proof/Laws/Operands.lean ====
section
/-! SUPPORT. The bits of the payload number and of the channel sum, and the elements of the vectors built from them
(20_memory.md R55, 30_encoding.md R74, R91). -/
namespace Sys2Proof.Machine

/-- Bit `j` of the payload sum is bit `j mod 8` of byte `j div 8` (20_memory.md R55). -/
theorem leNat_testBit : ∀ (q : List Byte) (j : Nat),
    (leNat q).testBit j = (q.getD (j / 8) 0).getLsbD (j % 8)
  | [], j => by simp [leNat]
  | b :: q, j => by
    rw [leNat, Nat.add_comm, Nat.testBit_two_pow_mul_add _ b.isLt]
    by_cases h : j < 8
    · rw [if_pos h, Nat.div_eq_of_lt h, Nat.mod_eq_of_lt h]
      rfl
    · rw [if_neg h, leNat_testBit q (j - 8)]
      have h1 : j / 8 = (j - 8) / 8 + 1 := by omega
      have h2 : j % 8 = (j - 8) % 8 := by omega
      rw [h1, h2]
      rfl

/-- Bit `j` of the channel sum is bit `j mod w` of channel `j div w`, for channels of `w` bits (30_encoding.md R91). -/
theorem channelsNat_testBit {w : Nat} (hw : 0 < w) : ∀ (c : List (BitVec w)) (j : Nat),
    (channelsNat c).testBit j = (c.getD (j / w) 0).getLsbD (j % w)
  | [], j => by simp [channelsNat]
  | x :: c, j => by
    rw [channelsNat, Nat.add_comm, Nat.testBit_two_pow_mul_add _ x.isLt]
    by_cases h : j < w
    · rw [if_pos h, Nat.div_eq_of_lt h, Nat.mod_eq_of_lt h]
      rfl
    · rw [if_neg h, channelsNat_testBit hw c (j - w)]
      have h1 : j / w = (j - w) / w + 1 := by
        rw [Nat.div_eq_sub_div hw (by omega)]
      have h2 : j % w = (j - w) % w := Nat.mod_eq_sub_mod (by omega)
      rw [h1, h2]
      rfl

/-- Bit `j` of the payload number (20_memory.md R55). -/
theorem payloadNumber_getLsbD (c : Config) (q : c.PayloadBytes) (j : Nat) (h : j < c.payloadBits) :
    (payloadNumber c q).getLsbD j = (q[j / 8]'(by have h' : j < 8 * c.payloadLen := h; omega)).getLsbD (j % 8) := by
  unfold payloadNumber
  rw [BitVec.getLsbD_ofNat, leNat_testBit]
  have h' : j < 8 * c.payloadLen := h
  simp only [h, decide_true, Bool.true_and]
  rw [List.getD_eq_getElem _ _ (by simp; omega)]
  simp

/-- Channel `i` of UNPACK, with the payload's bits least significant first (42_decoder.md R143). -/
theorem unpack_getElem (c : Config) (hc : c.payloadBitOrder = .lsbFirst) (q : c.PayloadBytes) (i : Nat) (h : i < c.nCh) :
    (unpack c q)[i] = (payloadNumber c q).extractLsb' (c.chBits * i) c.chBits := by
  simp [unpack, channel, hc]

/-- Byte `k` of PACK (30_encoding.md R91). -/
theorem pack_getElem (c : Config) (ch : c.ChannelVector) (k : Nat) (h : k < c.payloadLen) :
    (pack c ch)[k] = (BitVec.ofNat c.payloadBits (channelsNat ch.toList)).extractLsb' (8 * k) 8 := by
  simp [pack]

/-- Bit `b` of byte `k` of PACK (30_encoding.md R91). -/
theorem pack_getLsbD (ch : Channels) (k b : Nat) (h : k < 22) (hb : b < 8) :
    ((pack cfg ch)[k]'h).getLsbD b =
      (ch[(8 * k + b) / 11]'(by show _ < 16; omega)).getLsbD ((8 * k + b) % 11) := by
  rw [pack_getElem cfg ch k h, BitVec.getLsbD_extractLsb', BitVec.getLsbD_ofNat, channelsNat_testBit (by decide)]
  have h1 : 8 * k + b < cfg.payloadBits := by show _ < 176; omega
  simp only [hb, h1, decide_true, Bool.true_and]
  rw [List.getD_eq_getElem _ _ (by rw [Vector.length_toList]; show _ / 11 < 16; omega)]
  simp only [Vector.getElem_toList]

/-- The mapped value under rounding, as one division (42_decoder.md R144). -/
theorem axisValue_eq (r : Nat) : axisValue cfg r = (131068 * ((r : Int) - 172) + 1639) / 3278 - 32767 := by
  have h : axisValue cfg r = (2 * (((r : Int) - (172 : Nat)) * (2 * (32767 : Nat))) + (((1811 : Nat) : Int) - (172 : Nat))) /
      (2 * (((1811 : Nat) : Int) - (172 : Nat))) - (32767 : Nat) := rfl
  rw [h]
  congr 2
  push_cast
  ring

/-- AXIS_MAP stores the low 16 bits (42_decoder.md R144 item 4). -/
theorem axisMap_eq (r : Channel) : axisMap cfg r = BitVec.ofInt 16 (axisValue cfg r.toNat) := rfl

/-- A byte list of `frame` is one line a byte (30_encoding.md R91). -/
theorem frameLines_length (us dus ms : Time) (bytes : List Byte) :
    (frameLines us dus ms bytes).length = bytes.length := by
  induction bytes generalizing us with
  | nil => rfl
  | cons b bytes ih => rw [frameLines, List.length_cons, ih, List.length_cons]

/-- A `frame` line presents the input vectors of its lines (30_encoding.md R91). -/
theorem scriptInputs_frame (us dus ms : Time) (bytes : List Byte) :
    scriptInputs [.frame us dus ms bytes] = (frameLines us dus ms bytes).map lineInputs := by
  simp [scriptInputs, expandLine]

/-- An `rcframe` is a `frame` line with its 26 bytes (30_encoding.md R91). -/
theorem scriptInputs_rcframe (us dus ms : Time) (ch : Channels) (crc : Byte) :
    scriptInputs [.rcframe us dus ms ch crc] = scriptInputs [.frame us dus ms (rcframeBytes ch crc)] := rfl

end Sys2Proof.Machine
end

