-- ==== Sys2Proof/Laws/PerInstr.lean ====
section
/-! SUPPORT. Per operation: its selector word fits its format, and its row of the opcode map matches the word
(30_encoding.md R78 to R87). -/
namespace Sys2Proof.Laws.FitsFormat

/-- The selector word of the operation has no bit above its format's width, and a row of its stage matches it. -/
def Statement (i : Instr) : Prop :=
  (encode i).2.toNat < 2 ^ (encode i).1.width ∧
    ∃ r ∈ opTable, r.fmt = (encode i).1 ∧ r.matches (encode i).2 = true

theorem reset : Statement .reset := by unfold Statement; decide
theorem arbIdleRc : Statement .arbIdleRc := by unfold Statement; decide
theorem arbEnter : Statement .arbEnter := by unfold Statement; decide
theorem arbBridge : ∀ vrx : Bool, Statement (.arbBridge vrx) := by unfold Statement; decide
theorem brU2s : ∀ s2uGo bto : Bool, Statement (.brU2s s2uGo bto) := by unfold Statement; decide
theorem brS2u : ∀ u2sGo bto : Bool, Statement (.brS2u u2sGo bto) := by unfold Statement; decide
theorem brHold : Statement .brHold := by unfold Statement; decide
theorem arbExit : Statement .arbExit := by unfold Statement; decide
theorem rxGapReset : Statement .rxGapReset := by unfold Statement; decide
theorem rxNop : Statement .rxNop := by unfold Statement; decide
theorem rxAppend : Statement .rxAppend := by unfold Statement; decide
theorem rxComplete : ∀ full : Bool, Statement (.rxComplete full) := by unfold Statement; decide
theorem rxOverflow : Statement .rxOverflow := by unfold Statement; decide
theorem rxContinue : Statement .rxContinue := by unfold Statement; decide
theorem decAcceptRc : Statement .decAcceptRc := by unfold Statement; decide

theorem decIgnore (addr typ : Byte) : Statement (.decIgnore addr typ) := by
  refine ⟨(hdrWord addr typ).isLt, ⟨"DEC_IGNORE", .hdr, 0x0000, 0x0000, true, fun w => .decIgnore (hdrAddr w) (hdrType w)⟩,
    ?_, rfl, ?_⟩
  · exact List.mem_of_getElem? (i := 15) rfl
  · simp [OpRow.matches]

theorem dispIdle : ∀ hidr : Bool, Statement (.dispIdle hidr) := by unfold Statement; decide
theorem dispSend : Statement .dispSend := by unfold Statement; decide
theorem dispDrop : Statement .dispDrop := by unfold Statement; decide

end Sys2Proof.Laws.FitsFormat
end

