-- ==== Sys2Proof/Machine/ScriptText.lean ====
section
/-! DEFINITION. The text of a stimulus script: the lines of 30_encoding.md R90 and the pseudo-lines of R91, read from
characters. A text outside the grammar is rejected (entry 17). -/
namespace Sys2Proof.Machine

/-- The characters between separators. -/
def splitAt (sep : Char) : List Char → List (List Char)
  | [] => [[]]
  | c :: cs =>
    if c = sep then [] :: splitAt sep cs
    else match splitAt sep cs with
      | w :: ws => (c :: w) :: ws
      | [] => [[c]]

/-- A decimal digit. -/
def decDigit (c : Char) : Option Nat := if 48 ≤ c.toNat ∧ c.toNat ≤ 57 then some (c.toNat - 48) else none

/-- A hexadecimal digit, in either case (DESIGN CHOICE: entry 17). -/
def hexDigit (c : Char) : Option Nat :=
  if 65 ≤ c.toNat ∧ c.toNat ≤ 70 then some (c.toNat - 55)
  else if 97 ≤ c.toNat ∧ c.toNat ≤ 102 then some (c.toNat - 87)
  else decDigit c

/-- Decimal digits after a number already read; any number of them, so leading zeros too (DESIGN CHOICE: entry 17). -/
def decMore (n : Nat) : List Char → Option Nat
  | [] => some n
  | c :: cs => (decDigit c).bind fun d => decMore (10 * n + d) cs

/-- A decimal number below a bound: at least one digit, and leading zeros or any number of digits are accepted, which the
grammar's "decimal" leaves open (30_encoding.md R90; DESIGN CHOICE: entry 17). -/
def decBelow (bound : Nat) (cs : List Char) : Option Nat :=
  if cs = [] then none else (decMore 0 cs).filter (· < bound)

/-- `N`: decimal, 0 to 2^32 − 1 (30_encoding.md R90). -/
def readTime (cs : List Char) : Option Time := (decBelow (2 ^ cfg.timeBits) cs).map (BitVec.ofNat cfg.timeBits)

/-- `HH`: two hexadecimal digits (30_encoding.md R90). -/
def readByte : List Char → Option Byte
  | [a, b] => (hexDigit a).bind fun x => (hexDigit b).map fun y => BitVec.ofNat 8 (16 * x + y)
  | _ => none

/-- `B`: 0 or 1 (30_encoding.md R90). -/
def readBit : List Char → Option Bool
  | ['0'] => some false
  | ['1'] => some true
  | _ => none

/-- The value of a `key=value` word. -/
def valueOf (key : List Char) (w : List Char) : Option (List Char) :=
  if w.take (key.length + 1) = key ++ ['='] then some (w.drop (key.length + 1)) else none

/-- A word `key=value` that must stand first. -/
def need (key : List Char) (read : List Char → Option α) : List (List Char) → Option (α × List (List Char))
  | [] => none
  | w :: ws => (valueOf key w).bind fun v => (read v).map fun a => (a, ws)

/-- A word `key=value` that may stand first. -/
def may (key : List Char) (read : List Char → Option α) : List (List Char) → Option (Option α × List (List Char))
  | [] => some (none, [])
  | w :: ws =>
    match valueOf key w with
    | none => some (none, w :: ws)
    | some v => (read v).map fun a => (some a, ws)

/-- Nothing is left on the line. -/
def done (a : α) : List (List Char) → Option α
  | [] => some a
  | _ :: _ => none

/-- Bytes in hexadecimal, one a word (30_encoding.md R91). -/
def readBytes : List (List Char) → Option (List Byte)
  | [] => some []
  | w :: ws => (readByte w).bind fun b => (readBytes ws).map (b :: ·)

/-- Channel values in decimal, 0 to 2047. -/
def readChannelList : List (List Char) → Option (List Channel)
  | [] => some []
  | w :: ws => (decBelow (2 ^ cfg.chBits) w).bind fun n => (readChannelList ws).map (BitVec.ofNat cfg.chBits n :: ·)

/-- Sixteen channel values between commas. -/
def readChannels (cs : List Char) : Option Channels :=
  (readChannelList (splitAt ',' cs)).bind fun l => if h : l.length = cfg.nCh then some ⟨l.toArray, by simpa using h⟩ else none

/-- `rst [us=N] [ms=N]` after its first word (30_encoding.md R90). -/
def readRst (ws : List (List Char)) : Option PseudoLine :=
  (may ['u', 's'] readTime ws).bind fun (us, ws) =>
    (may ['m', 's'] readTime ws).bind fun (ms, ws) => done (.line (.rst us ms)) ws

/-- `tick us=N ms=N [urx=HH] [vrx=HH] [stx=B] [vtx=B] [hid=B]` after its first word (30_encoding.md R90). -/
def readTick (ws : List (List Char)) : Option PseudoLine :=
  (need ['u', 's'] readTime ws).bind fun (us, ws) =>
    (need ['m', 's'] readTime ws).bind fun (ms, ws) =>
      (may ['u', 'r', 'x'] readByte ws).bind fun (urx, ws) =>
        (may ['v', 'r', 'x'] readByte ws).bind fun (vrx, ws) =>
          (may ['s', 't', 'x'] readBit ws).bind fun (stx, ws) =>
            (may ['v', 't', 'x'] readBit ws).bind fun (vtx, ws) =>
              (may ['h', 'i', 'd'] readBit ws).bind fun (hid, ws) =>
                done (.line (.tick us ms urx vrx stx vtx hid)) ws

/-- What stands after `bytes=` of a `frame` line: bytes, at least one, or an `rcframe` (30_encoding.md R91; that the
`rcframe` stands there as words of the line, and that no byte list is empty: DESIGN CHOICE, entry 17). -/
def readFrameBytes (us dus ms : Time) : List (List Char) → Option PseudoLine
  | ['r', 'c', 'f', 'r', 'a', 'm', 'e'] :: ws =>
    (need ['c', 'h'] readChannels ws).bind fun (ch, ws) =>
      (need ['c', 'r', 'c'] readByte ws).bind fun (crc, ws) => done (.rcframe us dus ms ch crc) ws
  | ws => (readBytes ws).map (.frame us dus ms)

/-- `frame us=U dus=D ms=M bytes=…` after its first word (30_encoding.md R91). -/
def readFrame (ws : List (List Char)) : Option PseudoLine :=
  (need ['u', 's'] readTime ws).bind fun (us, ws) =>
    (need ['d', 'u', 's'] readTime ws).bind fun (dus, ws) =>
      (need ['m', 's'] readTime ws).bind fun (ms, ws) =>
        (need ['b', 'y', 't', 'e', 's'] some ws).bind fun (first, ws) => readFrameBytes us dus ms (first :: ws)

/-- `idle us=U ms=M` after its first word (30_encoding.md R91). -/
def readIdle (ws : List (List Char)) : Option PseudoLine :=
  (need ['u', 's'] readTime ws).bind fun (us, ws) =>
    (need ['m', 's'] readTime ws).bind fun (ms, ws) => done (.idle us ms) ws

/-- `vin us=U ms=M byte=HH` after its first word (30_encoding.md R91). -/
def readVin (ws : List (List Char)) : Option PseudoLine :=
  (need ['u', 's'] readTime ws).bind fun (us, ws) =>
    (need ['m', 's'] readTime ws).bind fun (ms, ws) =>
      (need ['b', 'y', 't', 'e'] readByte ws).bind fun (b, ws) => done (.vin us ms b) ws

/-- One line of a script, its words apart by one space (30_encoding.md R90, R91). That is the grammar's own for plain
lines, which stand in it with their spaces; for pseudo-lines it is the model's choice (DESIGN CHOICE: entry 17). -/
def readLine (cs : List Char) : Option PseudoLine :=
  match splitAt ' ' cs with
  | ['r', 's', 't'] :: ws => readRst ws
  | ['t', 'i', 'c', 'k'] :: ws => readTick ws
  | ['f', 'r', 'a', 'm', 'e'] :: ws => readFrame ws
  | ['i', 'd', 'l', 'e'] :: ws => readIdle ws
  | ['v', 'i', 'n'] :: ws => readVin ws
  | _ => none

/-- The lines of a script. -/
def readLines : List (List Char) → Option (List PseudoLine)
  | [] => some []
  | l :: ls => (readLine l).bind fun p => (readLines ls).map (p :: ·)

/-- The lines of a text: a newline ends a line, and the last line may stand without one; a text of no characters has no
line. The grammar names no line separator (DESIGN CHOICE: entry 17). -/
def splitLines : List Char → List (List Char)
  | [] => []
  | c :: cs =>
    if c = '\n' then [] :: splitLines cs
    else match splitLines cs with
      | l :: ls => (c :: l) :: ls
      | [] => [[c]]

/-- A script, `line*`, with one line per tick or pseudo-line (30_encoding.md R90, R91). How lines are parted is the
model's choice, and a line of no characters is none of the grammar's and rejects the text (DESIGN CHOICE: entry 17). -/
def readScript (cs : List Char) : Option (List PseudoLine) := readLines (splitLines cs)

end Sys2Proof.Machine
end

