-- ==== Sys2Proof/Tests/Slice0.lean ====
section
/-! SUPPORT. Tests, their expected results from 95_test_vectors.md and the encoding tables of 30_encoding.md, and
a witness for every obligation that has hypotheses. -/
namespace Sys2Proof.Tests
open Sys2Proof.Machine

/-- A state with an attempt of `pos` bytes, at the report of RESET. -/
def bench (mode : Mode) (br : Time) (pos : Nat) (decl : Byte) (us : Time) (buf : List Host.Cell) : State :=
  { State.reset with mode := mode, brLastMs := br, buf := buf, pos := pos, declLen := decl, lastRxUs := us }

/-- `tick us= ms= [urx=] [vrx=]` with every sink ready. -/
def tk (us ms : Time) (urx vrx : Option Byte) : Inputs := lineInputs (.tick us ms urx vrx none none none)

/-- The state the tick with these inputs leaves. -/
def after (s : State) (i : Inputs) : Option State :=
  match step (s.setScript [i]) with
  | .next t => some t
  | _ => none

/-- A check of what the tick with these inputs leaves. -/
def holds (s : State) (i : Inputs) (p : State → Bool) : Bool := (after s i).any p

/-! The configuration and the well-formedness checks -/

theorem test_cfg_wellFormed : cfg.wellFormed = true := by decide
theorem test_small_buffer_refused : Config.wellFormed { cfg with bufCap := 25 } = false := by decide
theorem test_report_bit_refused : Config.wellFormed { cfg with swBit := #v[0, 1, 2, 3, 4, 5, 6, 8] } = false := by decide
theorem test_accepted_header_ignored_refused : Instr.wellFormed (.decIgnore 0xC8 0x16) = false := by decide
theorem test_other_header_ignored : Instr.wellFormed (.decIgnore 0xC8 0x14) = true := by decide
theorem test_unfilled_payload_refused : Config.wellFormed { cfg with chBits := 12 } = false := by decide
theorem test_report_length_refused : Config.wellFormed { cfg with reportLen := 18 } = false := by decide
/-- The values of 00_scope.md R6, in its order. -/
theorem test_cfg_values : cfg.devAddr = 0xC8 ∧ cfg.frameType = 0x16 ∧ cfg.payloadOff = 3 ∧ cfg.payloadLen = 22 ∧
    cfg.nCh = 16 ∧ cfg.chBits = 11 ∧ cfg.nAxes = 8 ∧ cfg.nSw = 8 ∧ cfg.axInMin = 172 ∧ cfg.axInMax = 1811 ∧
    cfg.axOutMax = 32767 ∧ cfg.swThresh = 1792 ∧ cfg.gapUs = 800 ∧ cfg.bridgeIdleMs = 2000 ∧ cfg.reportId = 0 ∧
    cfg.reportLen = 17 ∧ cfg.bufCap = 67 ∧ cfg.timeBits = 32 := by decide
/-- A rule written over the names follows them: four channels of six bits in three bytes, two axes, two switches. -/
def narrow : Config :=
  { cfg with payloadLen := 3, nCh := 4, chBits := 6, nAxes := 2, nSw := 2, swBit := #v[0, 1], split := by rfl }
theorem test_other_widths : (unpack narrow #v[0x41, 0x30, 0x10]).toList = [1, 1, 3, 4] := by decide

/-! Selector words written out from 30_encoding.md R79 to R87, every row of the opcode map -/

theorem test_decode_rst : decode .rst 0b1 = .ok [.reset] ∧ decode .rst 0b0 = .ok [] := ⟨by rfl, by rfl⟩
theorem test_decode_arb : decode .arb 0b00 = .ok [.arbIdleRc] ∧ decode .arb 0b10 = .ok [.arbEnter] ∧
    decode .arb 0b01 = .ok [.arbBridge false] ∧ decode .arb 0b11 = .ok [.arbBridge true] :=
  ⟨by rfl, by rfl, by rfl, by rfl⟩
theorem test_decode_br : decode .br 0b001 = .ok [.brU2s false false] ∧ decode .br 0b110 = .ok [.brS2u false true] ∧
    decode .br 0b011 = .ok [.brU2s true false, .brS2u true false] ∧ decode .br 0b000 = .ok [.brHold] ∧
    decode .br 0b100 = .ok [.arbExit] := ⟨by rfl, by rfl, by rfl, by rfl, by rfl⟩
theorem test_decode_rxg : decode .rxg 0b1 = .ok [.rxGapReset] ∧ decode .rxg 0b0 = .ok [] := ⟨by rfl, by rfl⟩
theorem test_decode_rxb : decode .rxb 0b0 = .ok [.rxNop] ∧ decode .rxb 0b1 = .ok [.rxAppend] := ⟨by rfl, by rfl⟩
theorem test_decode_rxp : decode .rxp 0b01 = .ok [.rxComplete false] ∧ decode .rxp 0b11 = .ok [.rxComplete true] ∧
    decode .rxp 0b10 = .ok [.rxOverflow] ∧ decode .rxp 0b00 = .ok [.rxContinue] := ⟨by rfl, by rfl, by rfl, by rfl⟩
theorem test_decode_hdr : decode .hdr 0x16C8 = .ok [.decAcceptRc] ∧ decode .hdr 0x14C8 = .ok [.decIgnore 0xC8 0x14] ∧
    decode .hdr 0xC816 = .ok [.decIgnore 0x16 0xC8] := ⟨by rfl, by rfl, by rfl⟩
theorem test_decode_dsp : decode .dsp 0b00 = .ok [.dispIdle false] ∧ decode .dsp 0b10 = .ok [.dispIdle true] ∧
    decode .dsp 0b11 = .ok [.dispSend] ∧ decode .dsp 0b01 = .ok [.dispDrop] := ⟨by rfl, by rfl, by rfl, by rfl⟩
theorem test_decode_wide : decode .hdr 0x10000 = .error (.widerThanFormat .hdr 0x10000) := by rfl
theorem test_table_rows : opTable.map (·.mnemonic) = ["RESET", "ARB_IDLE_RC", "ARB_ENTER", "ARB_BRIDGE", "BR_U2S",
    "BR_S2U", "BR_HOLD", "ARB_EXIT", "RX_GAP_RESET", "RX_NOP", "RX_APPEND", "RX_COMPLETE", "RX_OVERFLOW",
    "RX_CONTINUE", "DEC_ACCEPT_RC", "DEC_IGNORE", "DISP_IDLE", "DISP_SEND", "DISP_DROP"] := by decide
theorem test_table_word_hdr : decodeTableWord 16 0x16C8 = some .decAcceptRc ∧
    decodeTableWord 16 0x0000 = some (.decIgnore 0x00 0x00) := ⟨by rfl, by rfl⟩
theorem test_table_word_shared : decodeTableWord 8 0b100 = some .arbExit ∧ decodeTableWord 8 0b1000 = none :=
  ⟨by rfl, by rfl⟩

/-! The pure functions (95_test_vectors.md L2-B, L2-C, L2-D) -/

/-- PL_H's channels. -/
def chH : Channels := #v[172, 992, 1811, 500, 1500, 992, 992, 992, 172, 1811, 992, 1792, 1791, 0, 2047, 1800]

/-- PL_H. -/
def plH : Payload := #v[0xAC, 0x00, 0xDF, 0xC4, 0xE9, 0xC3, 0x5D, 0xF0, 0x81, 0x0F, 0x7C, 0xAC, 0x98, 0x38, 0xF8, 0x00,
  0xFE, 0x6F, 0x00, 0xFC, 0x1F, 0xE1]

theorem test_unpack_plH : unpack cfg plH = chH := by decide
theorem test_pack_plH : pack cfg chH = plH := by decide
theorem test_report_plH : (reportBytes cfg (reportOf cfg chH)).toList = [0x01, 0x80, 0x14, 0x00, 0xFF, 0x7F, 0x3C, 0xB3, 0x6C, 0x4F,
    0x14, 0x00, 0x14, 0x00, 0x14, 0x00, 0xCA] := by decide
theorem test_axis_round : [0, 1, 171, 172, 173, 992, 1811, 1812, 2047].map (axisMap cfg) =
    [0x6524, 0x654C, 0x7FD9, 0x8001, 0x8029, 0x0014, 0x7FFF, 0x8027, 0xA4DB] := by decide
theorem test_axis_trunc : [0, 171, 172, 173, 992, 1811, 1812].map (axisMap { cfg with axisRounding := .trunc }) =
    [0x6524, 0x7FDA, 0x8001, 0x8028, 0x0013, 0x7FFF, 0x8026] := by decide
theorem test_axis_saturate : [0, 171, 172, 1811, 1812, 2047].map (axisMap { cfg with axisOor := .saturate }) =
    [0x8001, 0x8001, 0x8001, 0x7FFF, 0x7FFF, 0x7FFF] := by decide
theorem test_switch_threshold : switchMap cfg #v[1792, 1791, 1792, 1791, 1792, 1791, 1792, 1791] = 0x55 ∧
    switchMap cfg #v[0, 0, 0, 0, 0, 0, 0, 2047] = 0x80 := by decide
theorem test_frame_presents_bytes : (scriptInputs [.frame 1000 24 1 [0xC8, 0x18]]) =
    [tk 1000 1 (some 0xC8) none, tk 1024 1 (some 0x18) none] := by rfl

theorem test_read_tick : readLine "tick us=4294967295 ms=2 urx=c8 stx=0".toList =
    some (.line (.tick 0xFFFFFFFF 2 (some 0xC8) none (some false) none none)) ∧
    readLine "tick us=4294967296 ms=2".toList = none ∧
    readLine "tick us=007 ms=2".toList = readLine "tick us=7 ms=2".toList := by decide
theorem test_read_script : readScript "rst\nframe us=1000 dus=24 ms=1 bytes=C8 18\nvin us=1 ms=2 byte=7E".toList =
    some [.line (.rst none none), .frame 1000 24 1 [0xC8, 0x18], .vin 1 2 0x7E] := by decide
/-- `line*` derives the text of no line (30_encoding.md R90); a last newline and a blank line: entry 17. -/
theorem test_read_line_ends : readScript [] = some [] ∧
    readScript "rst\nidle us=1 ms=2\n".toList = some [.line (.rst none none), .idle 1 2] ∧
    readScript "rst\n\nrst".toList = none := by decide
theorem test_read_rcframe : readLine
    "frame us=1 dus=2 ms=3 bytes=rcframe ch=0,1,2,3,4,5,6,7,8,9,10,11,12,13,14,2047 crc=0a".toList =
    some (.rcframe 1 2 3 #v[0, 1, 2, 3, 4, 5, 6, 7, 8, 9, 10, 11, 12, 13, 14, 2047] 0x0A) := by decide

/-! One step of each operation (95_test_vectors.md L1-2, L2-A, L2-E to L2-H) -/

theorem test_reset : holds (bench .bridging 7 12 0x18 9 [(0, 0xC8)]) { tk 5 5 (some 1) none with rst := true }
    (fun t => t.mode == .idle && t.brLastMs == 0 && t.buf == [] && t.pos == 0 && t.declLen == 0 && t.lastRxUs == 0 &&
      t.out == Outputs.defaults && t.trace == [.reset]) = true := by decide
theorem test_arbIdleRc_rxAppend_rxContinue : holds State.reset (tk 0 5 (some 0xC8) none)
    (fun t => t.fired == [.arbIdleRc, .rxAppend, .rxContinue, .dispIdle true] && t.pos == 1 && t.bufRead 0 == 0xC8 &&
      t.out.uartRxPop && t.trace == []) = true := by decide
theorem test_arbEnter_brU2s : holds State.reset (tk 0 5 none (some 0x7E))
    (fun t => t.trace == [.arbEnter, .brU2s] && t.mode == .bridging && t.brLastMs == 5 && t.out.vserRxPop &&
      t.out.uartTxValid && t.out.uartTxData == 0x7E) = true := by decide
theorem test_arbEnter_brHold : holds State.reset { tk 0 5 none (some 0x7E) with uartTxReady := false }
    (fun t => t.trace == [.arbEnter, .brHold] && t.mode == .bridging && t.out == Outputs.defaults) = true := by decide
theorem test_arbBridge_brS2u : holds (bench .bridging 100 0 0 0 []) (tk 0 2100 (some 0x55) none)
    (fun t => t.fired == [.arbBridge false, .brS2u false true] && t.brLastMs == 2100 && t.out.uartRxPop &&
      t.out.vserTxValid && t.out.vserTxData == 0x55) = true := by decide
theorem test_brU2s_brS2u_order : holds State.reset (tk 0 5 (some 0xC8) (some 0x7E))
    (fun t => t.trace == [.arbEnter, .brU2s, .brS2u] && t.out.vserTxData == 0xC8 && t.pos == 0) = true := by decide
theorem test_brHold_wraps : holds (bench .bridging 0xFFFFFF00 0 0 0 []) (tk 0 1743 none none)
    (fun t => t.trace == [.brHold] && t.mode == .bridging && t.brLastMs == 0xFFFFFF00) = true := by decide
theorem test_arbExit_wraps : holds (bench .bridging 0xFFFFFF00 0 0 0 []) (tk 0 1744 none none)
    (fun t => t.trace == [.arbExit] && t.mode == .idle) = true := by decide
theorem test_no_gap_at_800 : holds (bench .idle 0 10 0x18 1216 []) (tk 2016 2 (some 3) none)
    (fun t => t.trace == [] && t.pos == 11) = true := by decide
theorem test_rxGapReset_at_801 : holds (bench .idle 0 10 0x18 1216 []) (tk 2017 2 (some 0xC8) none)
    (fun t => t.trace == [.rxGapReset] && t.pos == 1 && t.bufRead 0 == 0xC8) = true := by decide
theorem test_rxNop : holds (bench .idle 0 1 0 1000 [(0, 0xC8)]) (tk 1100 1 none none)
    (fun t => t.fired == [.arbIdleRc, .rxNop, .dispIdle true] && t.pos == 1 && t.lastRxUs == 1000) = true := by decide
theorem test_rxComplete_decIgnore : holds (bench .idle 0 1 0 10 [(0, 0xC8)]) (tk 34 0 (some 0x00) none)
    (fun t => t.trace == [.rxComplete, .decIgnore] && t.pos == 0 && t.declLen == 0 && !t.out.hidSend) = true := by decide
theorem test_rxComplete_at_capacity : holds (bench .idle 0 66 0x41 10 [(0, 0xC8), (1, 0x41), (2, 0x16)])
    (tk 34 0 (some 0xFF) none)
    (fun t => t.fired.contains (.rxComplete true) && t.pos == 0 && t.bufRead 66 == 0xFF) = true := by decide
theorem test_rxOverflow : holds (bench .idle 0 66 0x42 10 [(0, 0xC8), (1, 0x42), (2, 0x16)]) (tk 34 0 (some 0xFF) none)
    (fun t => t.trace == [.rxOverflow] && t.pos == 0 && t.declLen == 0x42 && t.report == Report.zero) = true := by decide
theorem test_decAcceptRc_dispSend : holds (bench .idle 0 3 0x02 10 [(0, 0xC8), (1, 0x02), (2, 0x16)])
    (tk 34 0 (some 0xFF) none)
    (fun t => t.trace == [.rxComplete, .decAcceptRc, .dispSend] && t.out.hidSend && t.out.hidReportId == 0 &&
      t.out.hidReport == #v[0xF8, 0x8C, 0x24, 0x65, 0x24, 0x65, 0x24, 0x65, 0x24, 0x65, 0x24, 0x65, 0x24, 0x65, 0x24, 0x65,
        0x00] && !t.ready) = true := by decide
theorem test_dispDrop : holds (bench .idle 0 2 0x01 10 [(0, 0xC8), (1, 0x01)])
    { tk 34 0 (some 0x16) none with hidReady := false }
    (fun t => t.trace == [.rxComplete, .decAcceptRc, .dispDrop] && !t.out.hidSend && !t.ready &&
      t.report.axis == Vector.replicate 8 0x6524) = true := by decide
theorem test_swapped_header_ignored : holds (bench .idle 0 2 0x01 10 [(0, 0x16), (1, 0x01)]) (tk 34 0 (some 0xC8) none)
    (fun t => t.trace == [.rxComplete, .decIgnore] && t.report == Report.zero) = true := by decide
theorem test_withFetchWord : (match step (State.reset.withFetchWord 8 0b100) with
    | .next t => t.fired.contains .arbExit
    | _ => false) = true := by decide

/-! Witnesses -/

/-- The tick-boundary invariant as a check. -/
def boundary (s : State) : Bool :=
  decide (s.pos < cfg.bufCap) && !s.ready && (decide (s.pos < 2) || s.declLen == s.bufRead 1) && Memory.wf s.buf &&
    Memory.inSpace cfg.bufCap s.buf

theorem boundary_sound {s : State} (h : boundary s = true) : AtBoundary s := by
  simp only [boundary, Bool.and_eq_true, decide_eq_true_eq, Bool.not_eq_true', Bool.or_eq_true, beq_iff_eq] at h
  obtain ⟨⟨⟨⟨h1, h2⟩, h3⟩, h4⟩, h5⟩ := h
  exact ⟨h1, h2, fun h => h3.resolve_left (by omega), h4, h5⟩

/-- A check that holds of the next state gives the next state. -/
theorem step_witness {s : State} {i : Inputs} {p : State → Bool} (h : holds s i p = true) :
    ∃ t, step (s.setScript [i]) = .next t ∧ p t = true := by
  unfold holds after at h
  cases hs : step (s.setScript [i]) with
  | next t => rw [hs] at h; exact ⟨t, rfl, h⟩
  | fault r => rw [hs] at h; cases h
  | refused r => rw [hs] at h; cases h

/-- The last byte of a frame of 67 bytes is still to come. -/
def lastFree : State := bench .idle 0 66 0x41 10 [(0, 0xC8), (1, 0x41), (2, 0x16)]

/-- Two bytes of an RC frame that will complete at its third. -/
def twoBytes : State := bench .idle 0 2 0x01 10 [(0, 0xC8), (1, 0x01)]

/-- ArbIdleRcRunsTheRcPath, ArbEnterOpensTheBridge, ArbBridgeRunsTheRelay, RxNopDoesNothing, RxAppendStoresOneByte,
RxContinueDoesNothing: states in which the operation is selected. -/
theorem witness_selected :
    Instr.arbIdleRc ∈ fire .arb State.reset ∧
    Instr.arbEnter ∈ fire .arb { State.reset with inp := tk 0 0 none (some 1) } ∧
    Instr.arbBridge true ∈ fire .arb { bench .bridging 0 0 0 0 [] with inp := tk 0 0 none (some 1) } ∧
    Instr.rxNop ∈ fire .rxb State.reset ∧
    Instr.rxAppend ∈ fire .rxb { State.reset with inp := tk 0 0 (some 1) none } ∧
    (bench .idle 0 1 0 0 []).pos = 1 ∧ fire .rxp (bench .idle 0 1 0 0 []) = [.rxContinue] := by decide
theorem witness_RxAppendStoresOneByte :
    lastFree.pos < cfg.bufCap ∧ lastFree.pos + 1 = cfg.bufCap ∧ Memory.wf lastFree.buf = true := by decide
theorem witness_RxAppendStopsWithoutRoom : cfg.bufCap ≤ (bench .idle 0 67 0 0 []).pos := by decide
theorem witness_DecodeOfEncode : Instr.wellFormed (.decIgnore 0xC8 0x15) = true ∧
    Instr.wellFormed (.brU2s true true) = true := by decide
theorem witness_EncodeOfDecode : decode .hdr 0xFFFF = .ok [.decIgnore 0xFF 0xFF] ∧ decode .br 7 = .ok [.brU2s true true,
    .brS2u true true] := ⟨by rfl, by rfl⟩
theorem witness_ArrangedOperationRuns : Memory.wf lastFree.buf = true ∧ Instr.wellFormed (.dispDrop) = true ∧
    decodeTableWord 8 3 = some .dispSend := ⟨by decide, by decide, by rfl⟩
theorem witness_StageRunsDecodedOperations :
    decode .arb (selector .arb State.reset).toNat = .ok [.arbIdleRc] ∧
    decode .br (selector .br { State.reset with inp := { tk 0 0 (some 1) (some 2) with hidReady := false } }).toNat =
      .ok [.brU2s true false, .brS2u true false] := ⟨by rfl, by rfl⟩
theorem witness_StepRunsTheStagesInOrder :
    (State.reset.setScript [{ Inputs.zero with rst := true }]).nextInputs.rst = true ∧
    ((State.reset.setScript [tk 0 0 none (some 1)]).nextInputs.rst = false ∧
      (State.reset.setScript [tk 0 0 none (some 1)]).nextInputs.vserRxValid = true) ∧
    ((State.reset.setScript [tk 0 0 (some 1) none]).nextInputs.rst = false ∧
      (State.reset.setScript [tk 0 0 (some 1) none]).mode = .idle ∧
      (State.reset.setScript [tk 0 0 (some 1) none]).nextInputs.vserRxValid = false ∧
      (State.reset.setScript [tk 0 0 (some 1) none]).nextInputs.uartRxValid = true) := by decide
theorem witness_InputsComeFromTheScript :
    (State.reset.setScript [Inputs.zero]).script = Inputs.zero :: [] ∧ State.reset.script = [] := by decide
theorem witness_ResetTickDoesNothingElse :
    (lastFree.setScript [{ tk 5 5 (some 1) (some 2) with rst := true }]).nextInputs.rst = true := by decide
/-- FirstTickAfterReset, a witness a clause: a UART byte before the first VSER byte, a late first UART byte, and a tick
that accepts no frame. -/
theorem witness_FirstTickAfterReset :
    (∃ (pre : List Inputs) (i : Inputs), pre ≠ [] ∧ (∀ j ∈ pre, j.rst = false ∧ j.vserRxValid = false) ∧
      i.rst = false ∧ i.vserRxValid = true) ∧
    (∃ (pre : List Inputs) (i : Inputs), pre ≠ [] ∧
      (∀ j ∈ pre, j.rst = false ∧ j.vserRxValid = false ∧ j.uartRxValid = false) ∧
      i.rst = false ∧ i.vserRxValid = false ∧ i.uartRxValid = true) ∧
    (∀ (k : Nat) (u : State), 1 ≤ k → k ≤ 1 → run k (State.reset.setScript [tk 5000 5 (some 0x16) none]) = .next u →
      .decAcceptRc ∉ u.trace) :=
  ⟨⟨[tk 0 0 (some 0xC8) none], tk 10 0 none (some 1), by decide, by decide, by decide, by decide⟩,
    ⟨[tk 0 0 none none], tk 5000 5 (some 0x16) none, by decide, by decide, by decide, by decide, by decide⟩,
    fun k u h1 h2 h3 => by
      obtain rfl : k = 1 := by omega
      cases h3
      decide⟩

/-- BoundaryInvariantIsKept, EveryTickCompletes: the largest position, on a tick that completes there. -/
theorem witness_boundary_step : AtBoundary (lastFree.setScript [tk 34 0 (some 0xFF) none]) ∧
    ∃ t, step (lastFree.setScript [tk 34 0 (some 0xFF) none]) = .next t ∧ (t.pos == 0) = true :=
  ⟨boundary_sound (by decide), step_witness (by decide)⟩
/-- TimerBelongsToTheLastByte: a byte appended, and a tick without one. -/
theorem witness_TimerBelongsToTheLastByte :
    (AtBoundary (State.reset.setScript [tk 9 0 (some 0xC8) none]) ∧
      ∃ t, step (State.reset.setScript [tk 9 0 (some 0xC8) none]) = .next t ∧ decide (1 ≤ t.pos) = true) ∧
    (AtBoundary (lastFree.setScript [tk 34 0 none none]) ∧
      ∃ t, step (lastFree.setScript [tk 34 0 none none]) = .next t ∧ decide (1 ≤ t.pos) = true) :=
  ⟨⟨boundary_sound (by decide), step_witness (by decide)⟩, boundary_sound (by decide), step_witness (by decide)⟩
/-- EveryWriteHasItsOperation: ticks that change mode and timer, and buffer, position, length, timer, report. -/
theorem witness_EveryWriteHasItsOperation :
    (∃ t, step (State.reset.setScript [tk 0 5 none (some 1)]) = .next t ∧
      (t.mode != State.reset.mode && t.brLastMs != State.reset.brLastMs) = true) ∧
    (∃ t, step ((bench .idle 0 1 0x55 10 [(0, 0xC8)]).setScript [tk 34 0 (some 0x18) none]) = .next t ∧
      (t.buf != [(0, 0xC8)] && t.pos != 1 && t.declLen != 0x55 && t.lastRxUs != 10) = true) ∧
    (∃ t, step (twoBytes.setScript [tk 34 0 (some 0x16) none]) = .next t ∧
      (t.report != twoBytes.report) = true) ∧
    ∃ t, step (({ State.reset with ready := true } : State).setScript [tk 34 0 none none]) = .next t ∧
      (t.ready != true) = true :=
  ⟨step_witness (by decide), step_witness (by decide), step_witness (by decide), step_witness (by decide)⟩
theorem witness_BufferBytesAreRetained : Memory.wf lastFree.buf = true ∧
    ∃ t, step (lastFree.setScript [tk 34 0 (some 0xFF) none]) = .next t ∧ (t.bufRead 66 != lastFree.bufRead 66) = true :=
  ⟨by decide, step_witness (by decide)⟩
theorem witness_CanonicalBuffersAreUnique : ∃ m n : List Host.Cell, Memory.wf m = true ∧ Memory.wf n = true ∧
    (∀ a, Memory.read m a = Memory.read n a) ∧ m ≠ [] :=
  ⟨Memory.write (Memory.write [] 5 1) 2 7, Memory.write (Memory.write [] 2 7) 5 1, by decide, by decide, fun _ => rfl,
    by decide⟩
/-- TracesAreTheListedOnes: one tick for each of its four clauses. -/
theorem witness_TracesAreTheListedOnes :
    (AtBoundary (State.reset.setScript [{ Inputs.zero with rst := true }]) ∧
      ∃ t, step (State.reset.setScript [{ Inputs.zero with rst := true }]) = .next t ∧ t.inp.rst = true) ∧
    (AtBoundary (twoBytes.setScript [tk 34 0 (some 0x16) none]) ∧ twoBytes.mode = .idle ∧
      ∃ t, step (twoBytes.setScript [tk 34 0 (some 0x16) none]) = .next t ∧ (!t.inp.rst && !t.inp.vserRxValid) = true) ∧
    (AtBoundary (State.reset.setScript [tk 0 0 none (some 1)]) ∧ State.reset.mode = .idle ∧
      ∃ t, step (State.reset.setScript [tk 0 0 none (some 1)]) = .next t ∧ (!t.inp.rst && t.inp.vserRxValid) = true) ∧
    (AtBoundary ((bench .bridging 100 0 0 0 []).setScript [tk 0 2100 none none]) ∧
      ∃ t, step ((bench .bridging 100 0 0 0 []).setScript [tk 0 2100 none none]) = .next t ∧ (!t.inp.rst) = true) :=
  ⟨⟨boundary_sound (by decide), step_witness (by decide)⟩,
    ⟨boundary_sound (by decide), rfl, step_witness (by decide)⟩,
    ⟨boundary_sound (by decide), rfl, step_witness (by decide)⟩,
    boundary_sound (by decide), step_witness (by decide)⟩
/-- HandshakesAreKept, UndrivenOutputsAreDefault: a tick in which both relays move, one that sends a report, and one that
performs no operation that drives an output. -/
theorem witness_outputs :
    (∃ t, step (State.reset.setScript [tk 0 5 (some 1) (some 2)]) = .next t ∧
      (t.out.uartRxPop && t.out.vserRxPop && t.out.uartTxValid && t.out.vserTxValid && !t.out.hidSend) = true) ∧
    (∃ t, step (twoBytes.setScript [tk 34 0 (some 0x16) none]) = .next t ∧
      (t.out.hidSend && !t.out.uartTxValid && !t.out.vserTxValid) = true) ∧
    ∃ t, step (twoBytes.setScript [tk 34 0 none none]) = .next t ∧
      (t.fired == [.arbIdleRc, .rxNop, .dispIdle true]) = true :=
  ⟨step_witness (by decide), step_witness (by decide), step_witness (by decide)⟩
theorem witness_BridgePathIsIsolated :
    (State.reset.setScript [tk 0 5 none (some 1)]).nextInputs.rst = false ∧
    (State.reset.setScript [tk 0 5 none (some 1)]).nextInputs.vserRxValid = true ∧
    (lastFree.setScript [tk 0 5 none (some 1)]).nextInputs = (State.reset.setScript [tk 0 5 none (some 1)]).nextInputs ∧
    lastFree.mode = State.reset.mode ∧ lastFree.brLastMs = State.reset.brLastMs ∧ lastFree.pos ≠ State.reset.pos := by
  decide
/-- EveryDecodeIsSentOrDropped, SentReportsComeFromOneDecode: a report sent, and one dropped. -/
theorem witness_decodes :
    AtBoundary (twoBytes.setScript [tk 34 0 (some 0x16) none]) ∧
    (∃ t, step (twoBytes.setScript [tk 34 0 (some 0x16) none]) = .next t ∧
      (t.trace.contains .decAcceptRc && t.trace.contains .dispSend && t.out.hidSend && !t.inp.rst &&
        t.report != twoBytes.report) = true) ∧
    ∃ t, step (twoBytes.setScript [{ tk 34 0 (some 0x16) none with hidReady := false }]) = .next t ∧
      (t.trace.contains .decAcceptRc && t.trace.contains .dispDrop) = true :=
  ⟨boundary_sound (by decide), step_witness (by decide), step_witness (by decide)⟩

/-- The bytes `C8 41 16 FF×63` of a 67-byte frame, and its last byte (95_test_vectors.md A4). -/
def longPre (len : Byte) : List Inputs :=
  tk 10 0 (some 0xC8) none :: tk 34 0 (some len) none :: tk 58 0 (some 0x16) none :: List.replicate 63 (tk 82 0 (some 0xFF) none)

/-- FrameCompletesOnItsLastByte: the shortest frame, with a tick between its bytes, and the longest that fits. -/
theorem witness_FrameCompletesOnItsLastByte :
    (∃ (s : State) (pre rest : List Inputs) (last : Inputs) (len : Byte),
      AtBoundary s ∧ s.mode = .idle ∧ s.pos = 0 ∧ s.script = pre ++ last :: rest ∧
      attemptGoesOn 0 s.lastRxUs (pre ++ [last]) = true ∧ last.uartRxValid = true ∧
      (uartBytes (pre ++ [last]))[1]? = some len ∧ (uartBytes (pre ++ [last])).length = len.toNat + 2 ∧
      len.toNat + 2 ≤ cfg.bufCap ∧ len = 0) ∧
    (∃ (s : State) (pre rest : List Inputs) (last : Inputs) (len : Byte),
      AtBoundary s ∧ s.mode = .idle ∧ s.pos = 0 ∧ s.script = pre ++ last :: rest ∧
      attemptGoesOn 0 s.lastRxUs (pre ++ [last]) = true ∧ last.uartRxValid = true ∧
      (uartBytes (pre ++ [last]))[1]? = some len ∧ (uartBytes (pre ++ [last])).length = len.toNat + 2 ∧
      len.toNat + 2 = cfg.bufCap) :=
  ⟨⟨State.reset.setScript ([tk 10 0 (some 0xC8) none, tk 800 0 none none] ++ [tk 810 0 (some 0) none]), _, [], _, 0x00,
      boundary_sound (by decide), rfl, rfl, rfl, by decide, by decide, by decide, by decide, by decide, rfl⟩,
    ⟨State.reset.setScript (longPre 0x41 ++ [tk 82 0 (some 0xFF) none]), longPre 0x41, [], tk 82 0 (some 0xFF) none, 0x41,
      boundary_sound (by decide), rfl, rfl, rfl, by decide, by decide, by decide, by decide, by decide⟩⟩
/-- LongFrameOverflows: the shortest declared length that does not fit (95_test_vectors.md A5). -/
theorem witness_LongFrameOverflows : ∃ (s : State) (pre rest : List Inputs) (last : Inputs) (len : Byte),
    AtBoundary s ∧ s.mode = .idle ∧ s.pos = 0 ∧ s.script = pre ++ last :: rest ∧
    attemptGoesOn 0 s.lastRxUs (pre ++ [last]) = true ∧ last.uartRxValid = true ∧
    (uartBytes (pre ++ [last]))[1]? = some len ∧ (uartBytes (pre ++ [last])).length = cfg.bufCap ∧
    cfg.bufCap < len.toNat + 2 ∧ cfg.bufCap + 1 = len.toNat + 2 :=
  ⟨State.reset.setScript (longPre 0x42 ++ [tk 82 0 (some 0xFF) none]), longPre 0x42, [], tk 82 0 (some 0xFF) none, 0x42,
    boundary_sound (by decide), rfl, rfl, rfl, by decide, by decide, by decide, by decide, by decide, by decide⟩
/-- GapDiscardsBeforeTheByte: one microsecond above the threshold, with a byte and without (95_test_vectors.md L1-2). -/
theorem witness_GapDiscardsBeforeTheByte :
    (∃ s : State, Memory.wf s.buf = true ∧ s.ready = false ∧ s.mode = .idle ∧ s.pos ≠ 0 ∧ s.nextInputs.rst = false ∧
      s.nextInputs.vserRxValid = false ∧ cfg.gapUs < elapsed32 s.nextInputs.nowUs s.lastRxUs ∧
      s.nextInputs.uartRxValid = true ∧ cfg.gapUs + 1 = elapsed32 s.nextInputs.nowUs s.lastRxUs) ∧
    (∃ s : State, Memory.wf s.buf = true ∧ s.ready = false ∧ s.mode = .idle ∧ s.pos ≠ 0 ∧ s.nextInputs.rst = false ∧
      s.nextInputs.vserRxValid = false ∧ cfg.gapUs < elapsed32 s.nextInputs.nowUs s.lastRxUs ∧
      s.nextInputs.uartRxValid = false ∧ cfg.gapUs + 1 = elapsed32 s.nextInputs.nowUs s.lastRxUs) :=
  ⟨⟨(bench .idle 0 10 0x18 1216 []).setScript [tk 2017 2 (some 0xC8) none],
    rfl, rfl, rfl, by decide, rfl, rfl, by decide, rfl, by decide⟩,
   ⟨(bench .idle 0 10 0x18 1216 []).setScript [tk 2017 2 none none],
    rfl, rfl, rfl, by decide, rfl, rfl, by decide, rfl, by decide⟩⟩
/-- SessionLastsUntilTheTimeout: a move, a hold one millisecond short of the timeout, and the exit at it (L1-8). -/
theorem witness_SessionLastsUntilTheTimeout : ∃ (s : State) (enter exit : Inputs) (ins rest : List Inputs),
    s.mode = .idle ∧ s.script = enter :: ins ++ exit :: rest ∧ enter.rst = false ∧ enter.vserRxValid = true ∧
    sessionGoesOn enter.nowMs ins = true ∧ exit.rst = false ∧ byteMoves exit = false ∧
    cfg.bridgeIdleMs ≤ elapsed32 exit.nowMs (lastMove enter.nowMs ins) :=
  ⟨State.reset.setScript (tk 0 50 none (some 1) :: [tk 0 100 (some 2) none, tk 0 2099 none none] ++ [tk 0 2100 none none]),
    tk 0 50 none (some 1), tk 0 2100 none none, [tk 0 100 (some 2) none, tk 0 2099 none none], [],
    rfl, rfl, rfl, rfl, by decide, rfl, by decide, by decide⟩
/-- The clause of SessionLastsUntilTheTimeout about the tick after the exit meets such inputs. -/
theorem witness_rc_tick_after_exit : (tk 0 2200 (some 0xC8) none).rst = false ∧
    (tk 0 2200 (some 0xC8) none).vserRxValid = false := by decide
/-- StalledByteLocksOutTheRcPath: a byte held at the VSER port with the UART not ready (L3 P7). -/
theorem witness_StalledByteLocksOutTheRcPath : ∃ (s : State) (x y : Inputs) (more rest : List Inputs),
    s.script = x :: y :: more ++ rest ∧ (∀ i ∈ x :: y :: more, i.rst = false ∧ i.vserRxValid = true) ∧
    s.mode = .bridging ∧ byteMoves x = false ∧ cfg.bridgeIdleMs ≤ elapsed32 x.nowMs s.brLastMs :=
  ⟨(bench .bridging 0 0 0 0 []).setScript [{ tk 0 2000 none (some 0xAA) with uartTxReady := false },
      { tk 0 2000 (some 0xC8) (some 0xAA) with uartTxReady := false, vserTxReady := false }],
    { tk 0 2000 none (some 0xAA) with uartTxReady := false },
    { tk 0 2000 (some 0xC8) (some 0xAA) with uartTxReady := false, vserTxReady := false }, [], [],
    rfl, by decide, rfl, by decide, by decide⟩
/-- ChannelBitsComeFromTheirPayloadBits, SwitchBitsFollowTheThreshold, ReportBytesLayout: the last index of each range. -/
theorem witness_indices : (15 < 16 ∧ 10 < 11 ∧ (11 * 15 + 10) / 8 = 21) ∧ 7 < 8 := by decide
theorem witness_PackOfUnpackIsThePayload : unpack cfg plH = unpack cfg (pack cfg chH) := by decide
theorem witness_AxisMapIsTheRoundedLaw : (172 : Channel) < 173 ∧ 172 ≤ (1811 : Channel).toNat ∧ (1811 : Channel).toNat ≤ 1811
    := by decide
/-- EqualPayloadsGiveEqualReports: buffers that differ outside the payload. -/
theorem witness_EqualPayloadsGiveEqualReports : ∃ s s' t t' : State,
    (∀ a, 3 ≤ a → a ≤ 24 → s.bufRead a = s'.bufRead a) ∧ exec .decAcceptRc s = .next t ∧
    exec .decAcceptRc s' = .next t' ∧ s.bufRead 2 ≠ s'.bufRead 2 :=
  ⟨bench .idle 0 0 0 0 [(2, 0x16)], bench .idle 0 0 0 0 [(25, 1)], _, _,
    fun a h1 h2 => by interval_cases a <;> rfl, rfl, rfl, by decide⟩
/-- All bytes of an RC-channels frame but its CRC, and a tick without a byte. -/
def rcPre : List Inputs := scriptInputs [.frame 1000 24 1 ((rcframeBytes chH 0).take 25), .idle 1700 1]
/-- The CRC byte of that frame. -/
def rcLast (ready : Bool) : Inputs := { tk 2000 2 (some 0x5A) none with hidReady := ready }
theorem witness_FrameLinesArePresentedInOrder : ([0xC8, 0x18, 0x16] : List Byte)[2]? = some 0x16 := by decide
/-- RcFrameReachesTheHost: PL_H's channels, a tick without a byte before the last one, in both readinesses. -/
theorem witness_RcFrameReachesTheHost : ∀ ready : Bool,
    ∃ (s : State) (pre rest : List Inputs) (last : Inputs) (ch : Channels) (crc : Byte),
    AtBoundary s ∧ s.mode = .idle ∧ s.pos = 0 ∧ s.script = pre ++ last :: rest ∧
    attemptGoesOn 0 s.lastRxUs (pre ++ [last]) = true ∧ last.uartRxValid = true ∧
    uartBytes (pre ++ [last]) = rcframeBytes ch crc ∧ last.hidReady = ready :=
  fun ready => ⟨State.reset.setScript (rcPre ++ [rcLast ready]), rcPre, [], rcLast ready, chH, 0x5A,
    boundary_sound (by cases ready <;> decide), rfl, rfl, rfl, by cases ready <;> decide, rfl,
    by cases ready <;> decide, rfl⟩
/-- RcFrameLineReachesTheHost: PL_H's channels at the largest byte distance without a gap. -/
theorem witness_RcFrameLineReachesTheHost :
    AtBoundary (State.reset.setScript (scriptInputs [.rcframe 1000 800 1 chH 0x00] ++ [])) ∧
    (State.reset.setScript (scriptInputs [.rcframe 1000 800 1 chH 0x00] ++ [])).mode = .idle ∧
    (State.reset.setScript (scriptInputs [.rcframe 1000 800 1 chH 0x00] ++ [])).pos = 0 ∧
    (800 : Time).toNat ≤ cfg.gapUs := ⟨boundary_sound (by decide), rfl, rfl, by decide⟩

end Sys2Proof.Tests
end

