-- ==== Sys2Proof/Proofs/Elapsed.lean ====
section
/-! PROOFS. Time differences (00_scope.md R9, 70_reset_and_hazards.md R236). -/
namespace Sys2Proof.Machine

/-- The word difference in natural numbers: `before` is taken away from one wrap period, so nothing is truncated at 0. -/
theorem elapsed32_eq_natMod (now before : Time) :
    elapsed32 now before = (2 ^ 32 - before.toNat + now.toNat) % 2 ^ 32 :=
  BitVec.toNat_sub now before

/-- Settles O56: the natural and the integer difference are one wrap period apart, which the modulus does not see. -/
theorem elapsedTimeIsModular : Obligations.ElapsedTimeIsModular := by
  intro now before
  have hbefore : before.toNat ≤ 2 ^ 32 := before.isLt.le
  calc (elapsed32 now before : Int)
      = ((2 ^ 32 - before.toNat + now.toNat : Nat) : Int) % 2 ^ 32 := by
        rw [elapsed32_eq_natMod, Int.natCast_mod]; rfl
    _ = ((now.toNat : Int) - before.toNat + 2 ^ 32) % 2 ^ 32 := by
        congr 1
        omega
    _ = ((now.toNat : Int) - before.toNat) % 2 ^ 32 := Int.add_emod_right ..

end Sys2Proof.Machine
end

