-- ==== Sys2Proof/Proofs/StateElements.lean ====
section
/-! PROOFS. The state elements (10_state.md): the tick-boundary invariant of R35, and who writes each element
(R22 to R29). -/
namespace Sys2Proof.Machine

/-! ## The tick-boundary invariant (10_state.md R35) -/

/-- A state with an empty attempt, no report pending and an empty buffer is a tick boundary. -/
theorem atBoundary_of_empty {s : State} (hpos : s.pos = 0) (hready : s.ready = false) (hbuf : s.buf = []) :
    AtBoundary s where
  pos_lt := hpos ▸ Nat.zero_lt_succ 66
  not_ready := hready
  length_captured h := absurd h (by omega)
  canonical := hbuf ▸ rfl
  in_space := hbuf ▸ rfl

/-- Settles O31. -/
theorem resetStateIsAtBoundary : Obligations.ResetStateIsAtBoundary := atBoundary_of_empty rfl rfl rfl

/-- Starting a tick leaves the RC elements alone. -/
theorem beginTick_sameRc (s : State) : SameRc s s.beginTick := ⟨rfl, rfl, rfl, rfl, rfl, rfl⟩

theorem SameRc.trans {s t u : State} (h : SameRc s t) (h' : SameRc t u) : SameRc s u where
  buf := h'.buf.trans h.buf
  pos := h'.pos.trans h.pos
  declLen := h'.declLen.trans h.declLen
  lastRxUs := h'.lastRxUs.trans h.lastRxUs
  report := h'.report.trans h.report
  ready := h'.ready.trans h.ready

theorem SameRc.bufRead {s t : State} (h : SameRc s t) (a : Nat) : t.bufRead a = s.bufRead a :=
  congrArg (Memory.read · a) h.buf

/-- A whole bridge-path tick leaves the RC elements alone (44_arbiter.md R188). -/
theorem bridge_sameRc (s : State) : SameRc s (relayed (arbitrated s.beginTick)) :=
  (beginTick_sameRc s).trans (relayed_sameRc _)

/-- The invariant speaks of RC elements only. -/
theorem AtBoundary.of_sameRc {s t : State} (hs : AtBoundary s) (h : SameRc s t) : AtBoundary t where
  pos_lt := h.pos ▸ hs.pos_lt
  not_ready := h.ready.trans hs.not_ready
  length_captured ht := by rw [h.declLen, h.bufRead]; exact hs.length_captured (h.pos ▸ ht)
  canonical := h.buf ▸ hs.canonical
  in_space := h.buf ▸ hs.in_space

/-- The part of the invariant that holds between the stages of a tick too: inside a tick a report may be pending, and
`pos` may be `P_BUF_CAP` between stages D and E. -/
structure AttemptHeld (s : State) : Prop where
  /-- R35 item 3 -/
  length_captured : 2 ≤ s.pos → s.declLen = s.bufRead 1
  /-- entry 9 -/
  canonical : Memory.wf s.buf = true
  /-- 20_memory.md R51 -/
  in_space : Memory.inSpace cfg.bufCap s.buf = true

theorem AtBoundary.attemptHeld {s : State} (h : AtBoundary s) : AttemptHeld s :=
  ⟨h.length_captured, h.canonical, h.in_space⟩

/-- What leaves the buffer and the declared length alone, and `pos` alone or 0, keeps the attempt. -/
theorem AttemptHeld.of_frame {s t : State} (hs : AttemptHeld s) (hbuf : t.buf = s.buf) (hlen : t.declLen = s.declLen)
    (hpos : t.pos = s.pos ∨ t.pos = 0) : AttemptHeld t where
  length_captured ht := by
    have hread : t.bufRead 1 = s.bufRead 1 := congrArg (Memory.read · 1) hbuf
    rw [hlen, hread]
    exact hs.length_captured (by omega)
  canonical := hbuf ▸ hs.canonical
  in_space := hbuf ▸ hs.in_space

theorem gapChecked_pos_or (s : State) : (gapChecked s).pos = s.pos ∨ (gapChecked s).pos = 0 := by
  rw [gapChecked_pos]
  split
  · exact .inr rfl
  · exact .inl rfl

theorem postAppended_pos_or (s : State) : (postAppended s).pos = s.pos ∨ (postAppended s).pos = 0 := by
  rw [postAppended_pos]
  split
  · exact .inr rfl
  · exact .inl rfl

theorem gapChecked_attemptHeld {s : State} (h : AttemptHeld s) : AttemptHeld (gapChecked s) :=
  h.of_frame (gapChecked_buf s) (gapChecked_declLen s) (gapChecked_pos_or s)

theorem postAppended_attemptHeld {s : State} (h : AttemptHeld s) : AttemptHeld (postAppended s) :=
  h.of_frame (postAppended_buf s) (postAppended_declLen s) (postAppended_pos_or s)

theorem dispatched_attemptHeld {s : State} (h : AttemptHeld s) : AttemptHeld (dispatched s) :=
  h.of_frame (dispatched_buf s) (dispatched_declLen s) (.inl (dispatched_pos s))

/-- RX_APPEND keeps the attempt: the byte stored at index 1 is the one captured, and any later byte goes to a higher
index (41_receiver.md R122). -/
theorem appended_attemptHeld {s : State} (h : AttemptHeld s) (hroom : s.pos < cfg.bufCap) :
    AttemptHeld (appended s) where
  length_captured ht := by
    rw [appended_pos] at ht
    rw [appended_declLen, appended_bufRead s h.canonical]
    by_cases hp : s.pos = 1
    · rw [if_pos hp, if_pos hp.symm]
    · rw [if_neg hp, if_neg (Ne.symm hp)]
      exact h.length_captured (by omega)
  canonical := by rw [appended_buf]; exact Memory.write_wf _ _ h.canonical
  in_space := by rw [appended_buf]; exact Memory.write_inSpace _ hroom h.in_space

/-- Stage E ends an attempt that fills the buffer, so `pos` is below `P_BUF_CAP` again (41_receiver.md R125). -/
theorem postAppended_pos_lt {s : State} (h : s.pos ≤ cfg.bufCap) : (postAppended s).pos < cfg.bufCap := by
  rw [postAppended_pos]
  split
  · exact Nat.zero_lt_succ 66
  · rename_i hopen
    have hfull : s.pos ≠ cfg.bufCap := fun hp => hopen (.inr (flagFull_iff.mpr hp))
    omega

/-- Stages D and E keep the attempt and the bound on `pos`. -/
theorem received_keeps {s : State} (h : AttemptHeld s) (hroom : s.pos < cfg.bufCap) :
    AttemptHeld (received s) ∧ (received s).pos < cfg.bufCap := by
  unfold received
  split
  · exact ⟨postAppended_attemptHeld (appended_attemptHeld h hroom), postAppended_pos_lt (by rw [appended_pos]; omega)⟩
  · exact ⟨h.of_frame rfl rfl (.inl rfl), hroom⟩

/-- Stage G leaves no report pending: with it an attempt inside the buffer is a tick boundary. -/
theorem dispatched_atBoundary {s : State} (h : AttemptHeld s) (hroom : s.pos < cfg.bufCap) :
    AtBoundary (dispatched s) :=
  have ht := dispatched_attemptHeld h
  { pos_lt := (dispatched_pos s).symm ▸ hroom
    not_ready := dispatched_ready s
    length_captured := ht.length_captured
    canonical := ht.canonical
    in_space := ht.in_space }

/-- An RC-path tick keeps the invariant, stage by stage. -/
theorem rcResult_atBoundary {s : State} (hs : AtBoundary s) : AtBoundary (rcResult s.beginTick) := by
  have hstart : AttemptHeld (rcStart s) := hs.attemptHeld.of_frame rfl rfl (.inl rfl)
  have hroom : (gapChecked (rcStart s)).pos < cfg.bufCap := by
    have hlt : (rcStart s).pos < cfg.bufCap := hs.pos_lt
    have hor := gapChecked_pos_or (rcStart s)
    omega
  obtain ⟨hheld, hpos⟩ := received_keeps (gapChecked_attemptHeld hstart) hroom
  exact dispatched_atBoundary hheld hpos

/-- Settles O30: a reset empties the attempt, the bridge path leaves the RC elements alone, and the RC path keeps the
invariant stage by stage. -/
theorem boundaryInvariantIsKept : Obligations.BoundaryInvariantIsKept := by
  intro s t hs h
  rcases step_cases h with ⟨-, rfl⟩ | ⟨-, -, rfl⟩ | ⟨-, -, -, -, rfl⟩
  · exact atBoundary_of_empty rfl rfl rfl
  · exact hs.of_sameRc (bridge_sameRc s)
  · exact rcResult_atBoundary hs

/-! ## The timer and the last byte (10_state.md R35 item 4) -/

/-- An RC-path tick performs RX_APPEND exactly when a byte is presented (41_receiver.md R122). -/
theorem rxAppend_mem_rcResult_fired {s : State} :
    .rxAppend ∈ (rcResult s.beginTick).fired ↔ s.nextInputs.uartRxValid = true := by
  simp [mem_rcResult_fired, mem_fire_rxp, mem_fire_hdr, mem_fire_dsp]

/-- A bridge-path tick takes no byte into the buffer (44_arbiter.md R188). -/
theorem rxAppend_notMem_bridge_fired {s : State} (hb : onBridge s.beginTick) :
    .rxAppend ∉ (relayed (arbitrated s.beginTick)).fired := by
  simp [mem_bridge_fired hb, mem_fire_arb, mem_fire_br]

/-- An RC-path tick with a byte that leaves an attempt open appended that byte last, at the tick's time. -/
theorem rcResult_byte_last {s : State} (hw : Memory.wf s.buf = true) (hu : s.nextInputs.uartRxValid = true)
    (hp : 1 ≤ (rcResult s.beginTick).pos) :
    (rcResult s.beginTick).lastRxUs = s.nextInputs.nowUs ∧
      (rcResult s.beginTick).bufRead ((rcResult s.beginTick).pos - 1) = s.nextInputs.uartRxData := by
  have hw' : Memory.wf (gapChecked (rcStart s)).buf = true := by simpa using hw
  rw [rcResult_byte hu, dispatched_pos] at hp ⊢
  have hpos : (postAppended (appended (gapChecked (rcStart s)))).pos = (gapChecked (rcStart s)).pos + 1 := by
    rcases postAppended_pos_or (appended (gapChecked (rcStart s))) with h | h
    · rw [h, appended_pos]
    · omega
  rw [hpos, dispatched_bufRead, postAppended_bufRead, appended_bufRead _ hw']
  simp

/-- An RC-path tick without a byte leaves the buffer and the timer, and `pos` too where the attempt is still open. -/
theorem rcResult_no_byte_keeps {s : State} (hu : s.nextInputs.uartRxValid = false)
    (hp : 1 ≤ (rcResult s.beginTick).pos) :
    (rcResult s.beginTick).lastRxUs = s.lastRxUs ∧ (rcResult s.beginTick).pos = s.pos ∧
      ∀ a, (rcResult s.beginTick).bufRead a = s.bufRead a := by
  rw [rcResult_no_byte hu] at hp ⊢
  refine ⟨by simp, ?_, fun a => by simp⟩
  rw [dispatched_pos, State.noteOp_pos] at hp ⊢
  rcases gapChecked_pos_or (rcStart s) with h | h
  · exact h
  · omega

/-- Settles O33: only an RC-path tick with a byte appends, and then it is the tick's time and byte that stand last. -/
theorem timerBelongsToTheLastByte : Obligations.TimerBelongsToTheLastByte := by
  intro s t hs h hp
  rcases step_cases h with ⟨-, rfl⟩ | ⟨-, hb, rfl⟩ | ⟨-, -, -, -, rfl⟩
  · exact absurd hp (Nat.not_succ_le_zero 0)
  · have hrc := bridge_sameRc s
    exact .inr ⟨rxAppend_notMem_bridge_fired hb, hrc.lastRxUs, hrc.pos, hrc.bufRead⟩
  · cases hu : s.nextInputs.uartRxValid with
    | true =>
      obtain ⟨htime, hlast⟩ := rcResult_byte_last hs.canonical hu hp
      exact .inl ⟨rxAppend_mem_rcResult_fired.mpr hu, by simpa using htime, by simpa using hlast⟩
    | false => exact .inr ⟨by simp [rxAppend_mem_rcResult_fired, hu], rcResult_no_byte_keeps hu hp⟩

/-! ## Who writes each element (10_state.md R22 to R29) -/

/-- A bridge-path tick from IDLE entered bridging (44_arbiter.md R182). -/
theorem arbEnter_mem_bridge_fired {s : State} (hb : onBridge s.beginTick) (hm : s.mode = .idle) :
    .arbEnter ∈ (relayed (arbitrated s.beginTick)).fired := by
  have hv : s.nextInputs.vserRxValid = true := hb.resolve_left (by simp [hm])
  simp [mem_bridge_fired hb, mem_fire_arb, hm, hv]

/-- `mode` on the bridge path (10_state.md R22): entered from IDLE, or left by the relay. -/
theorem bridge_mode_written {s : State} (hb : onBridge s.beginTick)
    (h : (relayed (arbitrated s.beginTick)).mode ≠ s.mode) :
    .arbEnter ∈ (relayed (arbitrated s.beginTick)).fired ∨ .arbExit ∈ (relayed (arbitrated s.beginTick)).fired := by
  cases hm : s.mode with
  | idle => exact .inl (arbEnter_mem_bridge_fired hb hm)
  | bridging =>
    rw [relayed_mode, arbitrated_mode, hm] at h
    have hexit := (ite_ne_right_iff.mp h).1
    simp [mem_bridge_fired hb, mem_fire_br, hexit]

/-- `br_last_ms` on the bridge path (10_state.md R23): stamped on entry or by a byte moved either way. -/
theorem bridge_brLastMs_written {s : State} (hb : onBridge s.beginTick)
    (h : (relayed (arbitrated s.beginTick)).brLastMs ≠ s.brLastMs) :
    .arbEnter ∈ (relayed (arbitrated s.beginTick)).fired ∨
      (∃ g b, .brU2s g b ∈ (relayed (arbitrated s.beginTick)).fired) ∨
      (∃ g b, .brS2u g b ∈ (relayed (arbitrated s.beginTick)).fired) := by
  cases hm : s.mode with
  | idle => exact .inl (arbEnter_mem_bridge_fired hb hm)
  | bridging =>
    have hkept : (arbitrated s.beginTick).brLastMs = s.brLastMs := by
      rw [arbitrated_brLastMs, flagMode_beginTick, if_pos (flagMode_bridging hm), State.beginTick_brLastMs]
    rw [relayed_brLastMs, hkept] at h
    rcases (ite_ne_right_iff.mp h).1 with hmove | hmove
    · exact .inr (.inl ⟨_, _, (mem_bridge_fired hb).mpr (.inr (mem_fire_br.mpr (.inl ⟨hmove, rfl⟩)))⟩)
    · exact .inr (.inr ⟨_, _, (mem_bridge_fired hb).mpr (.inr (mem_fire_br.mpr (.inr (.inl ⟨hmove, rfl⟩))))⟩)

/-- `buf`, `decl_len` and `last_rx_us` on the RC path (10_state.md R24, R26, R27): only a tick with a byte writes them. -/
theorem rcResult_no_byte_frame {s : State} (hu : s.nextInputs.uartRxValid = false) :
    (rcResult s.beginTick).buf = s.buf ∧ (rcResult s.beginTick).declLen = s.declLen ∧
      (rcResult s.beginTick).lastRxUs = s.lastRxUs := by
  rw [rcResult_no_byte hu]
  simp

/-- `pos` on the RC path (10_state.md R25): a gap, or a byte. -/
theorem rcResult_pos_written {s : State} (h : (rcResult s.beginTick).pos ≠ s.pos) :
    .rxGapReset ∈ (rcResult s.beginTick).fired ∨ .rxAppend ∈ (rcResult s.beginTick).fired := by
  cases hg : flagGap cfg (rcStart s) with
  | true => exact .inl (mem_rcResult_fired.mpr (.inr (.inl ⟨hg, rfl⟩)))
  | false =>
    rw [rxAppend_mem_rcResult_fired, ← Bool.not_eq_false]
    refine .inr fun hu => h ?_
    rw [rcResult_no_byte hu, dispatched_pos, State.noteOp_pos, gapChecked_of_no_gap hg]
    rfl

/-- Stages D and E write `report` and `ready` only in a tick whose frame completes with the accepted header. -/
theorem received_report_ready {s : State} (h : ¬(s.inp.uartRxValid = true ∧ flagDone (appended s) = true ∧
    headerAccepted (appended s) = true)) : (received s).report = s.report ∧ (received s).ready = s.ready := by
  unfold received
  split
  · rename_i hu
    have hn : ¬(flagDone (appended s) = true ∧ headerAccepted (appended s) = true) := fun hd => h ⟨hu, hd⟩
    rw [postAppended_report, postAppended_ready, if_neg hn, if_neg hn, appended_report, appended_ready]
    exact ⟨rfl, rfl⟩
  · exact ⟨rfl, rfl⟩

/-- An RC-path tick without DEC_ACCEPT_RC hands `report` and `ready` to stage G as it found them. -/
theorem received_of_no_decode {s : State} (h : .decAcceptRc ∉ (rcResult s.beginTick).fired) :
    (received (gapChecked (rcStart s))).report = s.report ∧ (received (gapChecked (rcStart s))).ready = s.ready := by
  have hn : ¬((gapChecked (rcStart s)).inp.uartRxValid = true ∧
      flagDone (appended (gapChecked (rcStart s))) = true ∧
      headerAccepted (appended (gapChecked (rcStart s))) = true) := by
    rintro ⟨hu, hd, ha⟩
    have hu' : s.nextInputs.uartRxValid = true := by simpa using hu
    exact h (mem_rcResult_fired.mpr (.inr (.inr (.inr (.inr (.inl
      ⟨hu', .inr ⟨hd, mem_fire_hdr.mpr (.inl ⟨ha, rfl⟩)⟩⟩))))))
  obtain ⟨hreport, hready⟩ := received_report_ready hn
  exact ⟨by simpa using hreport, by simpa using hready⟩

/-- `report` on the RC path (10_state.md R28). -/
theorem rcResult_report_written {s : State} (h : (rcResult s.beginTick).report ≠ s.report) :
    .decAcceptRc ∈ (rcResult s.beginTick).fired := by
  by_contra hn
  exact h ((dispatched_report _).trans (received_of_no_decode hn).1)

/-- A report pending after stage E is sent or dropped in the same tick (43_dispatcher.md R173). -/
theorem rcResult_sends_or_drops {s : State} (h : (received (gapChecked (rcStart s))).ready = true) :
    .dispSend ∈ (rcResult s.beginTick).fired ∨ .dispDrop ∈ (rcResult s.beginTick).fired := by
  cases hh : s.nextInputs.hidReady <;> simp [mem_rcResult_fired, mem_fire_dsp, h, hh]

/-- `ready` on the RC path (10_state.md R29): it is 0 after stage G, so a change cleared a report that was pending. -/
theorem rcResult_ready_written {s : State} (h : (rcResult s.beginTick).ready ≠ s.ready) :
    .decAcceptRc ∈ (rcResult s.beginTick).fired ∨ .dispSend ∈ (rcResult s.beginTick).fired ∨
      .dispDrop ∈ (rcResult s.beginTick).fired := by
  by_cases hd : .decAcceptRc ∈ (rcResult s.beginTick).fired
  · exact .inl hd
  · have hclear : (rcResult s.beginTick).ready = false := dispatched_ready _
    have hpending : s.ready = true := by simpa [hclear] using h
    exact .inr (rcResult_sends_or_drops ((received_of_no_decode hd).2.trans hpending))

/-- Settles O34: RESET writes every element, the bridge path the first two, the RC path the other six. -/
theorem everyWriteHasItsOperation : Obligations.EveryWriteHasItsOperation := by
  intro s t h
  rcases step_cases h with ⟨-, rfl⟩ | ⟨-, hb, rfl⟩ | ⟨-, -, -, -, rfl⟩
  · have hreset : Instr.reset ∈ (wasReset s.beginTick).fired := List.mem_singleton.mpr rfl
    simp [hreset]
  · have hrc := bridge_sameRc s
    exact ⟨fun hw => (bridge_mode_written hb hw).imp_right .inl,
      fun hw => (bridge_brLastMs_written hb hw).imp_right (·.imp_right .inl),
      (absurd hrc.buf ·), (absurd hrc.pos ·), (absurd hrc.declLen ·), (absurd hrc.lastRxUs ·),
      (absurd hrc.report ·), (absurd hrc.ready ·)⟩
  · have hbyte {p : Prop} (hw : ¬p) (hkept : s.nextInputs.uartRxValid = false → p) :
        .rxAppend ∈ (rcResult s.beginTick).fired :=
      rxAppend_mem_rcResult_fired.mpr (by simpa using mt hkept hw)
    exact ⟨(absurd (rcResult_mode _) ·), (absurd (rcResult_brLastMs _) ·),
      fun hw => .inl (hbyte hw fun hu => (rcResult_no_byte_frame hu).1),
      fun hw => (rcResult_pos_written hw).imp_right .inl,
      fun hw => .inl (hbyte hw fun hu => (rcResult_no_byte_frame hu).2.1),
      fun hw => .inl (hbyte hw fun hu => (rcResult_no_byte_frame hu).2.2),
      fun hw => .inl (rcResult_report_written hw),
      fun hw => (rcResult_ready_written hw).imp_right (·.imp_right .inl)⟩

end Sys2Proof.Machine
end

