-- ==== Sys2Proof/Proofs/Memory.lean ====
section
/-! PROOFS. The frame buffer and the report (20_memory.md): which byte a tick may change, the one list a content has, the
write index that does not exist, and the one decode a sent report comes from. -/
namespace Sys2Proof.Machine

/-! ## Retention of buffer bytes (20_memory.md R53) -/

/-- An RC-path tick performs RX_GAP_RESET exactly when the gap check finds a gap (41_receiver.md R120). -/
theorem rxGapReset_mem_rcResult_fired {s : State} :
    .rxGapReset ∈ (rcResult s.beginTick).fired ↔ flagGap cfg (rcStart s) = true := by
  simp [mem_rcResult_fired, mem_fire_rxp, mem_fire_hdr, mem_fire_dsp]

/-- The write position after the gap check, from what the tick performed (41_receiver.md R120). -/
theorem gapChecked_pos_of_fired (s : State) :
    (gapChecked (rcStart s)).pos = if .rxGapReset ∈ (rcResult s.beginTick).fired then 0 else s.pos := by
  simp only [gapChecked_pos, rxGapReset_mem_rcResult_fired, State.noteOp_pos, State.beginTick_pos]

/-- What an RC-path tick with a byte leaves in each byte of a canonical buffer. -/
theorem rcResult_byte_bufRead {s : State} (hw : Memory.wf s.buf = true) (hu : s.nextInputs.uartRxValid = true)
    (a : Nat) : (rcResult s.beginTick).bufRead a =
      if a = (gapChecked (rcStart s)).pos then s.nextInputs.uartRxData else s.bufRead a := by
  have hw' : Memory.wf (gapChecked (rcStart s)).buf = true := by simpa using hw
  rw [rcResult_byte hu, dispatched_bufRead, postAppended_bufRead, appended_bufRead _ hw']
  simp

/-- Settles O35: the bridge path and a tick without a byte leave the whole buffer alone, and a tick with a byte stores it
at the one index its gap check left. -/
theorem bufferBytesAreRetained : Obligations.BufferBytesAreRetained := by
  intro s t a hw h hchanged
  rcases step_cases h with ⟨-, rfl⟩ | ⟨-, -, rfl⟩ | ⟨-, -, -, -, rfl⟩
  · exact .inl (List.mem_singleton.mpr rfl)
  · exact absurd ((bridge_sameRc s).bufRead a) hchanged
  · cases hu : s.nextInputs.uartRxValid with
    | false => exact absurd (congrArg (Memory.read · a) (rcResult_no_byte_frame hu).1) hchanged
    | true =>
      have hread := rcResult_byte_bufRead hw hu a
      have hindex : a = (gapChecked (rcStart s)).pos := by
        by_contra hne
        exact hchanged (hread.trans (if_neg hne))
      refine .inr ⟨rxAppend_mem_rcResult_fired.mpr hu, hindex.trans (gapChecked_pos_of_fired s), ?_⟩
      rw [hread, if_pos hindex, rcResult_inp, State.beginTick_inp]

/-! ## One list per content (20_memory.md R51; entry 9) -/

theorem Memory.wfFrom_cons {lo a : Nat} {c : Byte} {m : List Host.Cell} :
    Memory.wfFrom lo ((a, c) :: m) = true ↔ lo ≤ a ∧ c ≠ Memory.default ∧ Memory.wfFrom (a + 1) m = true := by
  simp [Memory.wfFrom, and_assoc]

@[simp] theorem Memory.read_cons_self (a : Nat) (c : Byte) (m : List Host.Cell) :
    Memory.read ((a, c) :: m) a = c := if_pos rfl

theorem Memory.read_cons_of_ne {a i : Nat} (h : a ≠ i) (c : Byte) (m : List Host.Cell) :
    Memory.read ((a, c) :: m) i = Memory.read m i := if_neg h

/-- A byte that does not read as the default is at or above the first listed address. -/
theorem Memory.le_of_read_ne_default {lo a i : Nat} {c : Byte} {m : List Host.Cell}
    (hm : Memory.wfFrom lo ((a, c) :: m) = true) (h : Memory.read ((a, c) :: m) i ≠ Memory.default) : a ≤ i := by
  obtain ⟨-, hc, htail⟩ := Memory.wfFrom_cons.mp hm
  by_contra hlt
  exact h (Memory.read_below (lo := a) (by omega) (Memory.wfFrom_cons.mpr ⟨le_rfl, hc, htail⟩))

/-- Two canonical lists with the same first cell and the same contents have tails with the same contents. -/
theorem Memory.read_tail_eq {a : Nat} {c : Byte} {m n : List Host.Cell} (hm : Memory.wfFrom (a + 1) m = true)
    (hn : Memory.wfFrom (a + 1) n = true)
    (h : ∀ i, Memory.read ((a, c) :: m) i = Memory.read ((a, c) :: n) i) (i : Nat) :
    Memory.read m i = Memory.read n i := by
  by_cases hi : a = i
  · rw [Memory.read_below (by omega) hm, Memory.read_below (by omega) hn]
  · simpa only [Memory.read_cons_of_ne hi] using h i

/-- Canonical lists are determined by their contents: each one's first listed address is the lowest that does not read as
the default, so the first cells are the same, and so on down the tails. -/
theorem Memory.eq_of_read_eq {lo : Nat} : ∀ {m n : List Host.Cell}, Memory.wfFrom lo m = true →
    Memory.wfFrom lo n = true → (∀ i, Memory.read m i = Memory.read n i) → m = n
  | [], [], _, _, _ => rfl
  | [], (a, c) :: n, _, hn, h => by
    obtain ⟨-, hc, -⟩ := Memory.wfFrom_cons.mp hn
    exact absurd (by simpa using (h a).symm) hc
  | (a, c) :: m, [], hm, _, h => by
    obtain ⟨-, hc, -⟩ := Memory.wfFrom_cons.mp hm
    exact absurd (by simpa using h a) hc
  | (a, c) :: m, (a', c') :: n, hm, hn, h => by
    obtain ⟨-, hc, hmtail⟩ := Memory.wfFrom_cons.mp hm
    obtain ⟨-, hc', hntail⟩ := Memory.wfFrom_cons.mp hn
    have haddr : a = a' := Nat.le_antisymm
      (Memory.le_of_read_ne_default hm (by rwa [h, Memory.read_cons_self]))
      (Memory.le_of_read_ne_default hn (by rwa [← h, Memory.read_cons_self]))
    subst haddr
    have hbyte : c = c' := by simpa using h a
    subst hbyte
    rw [Memory.eq_of_read_eq hmtail hntail (Memory.read_tail_eq hmtail hntail h)]

/-- Settles O36. -/
theorem canonicalBuffersAreUnique : Obligations.CanonicalBuffersAreUnique :=
  fun _ _ => Memory.eq_of_read_eq

/-! ## Atomicity of a report (20_memory.md R60, 70_reset_and_hazards.md R240) -/

/-- With no report pending before, one is pending after stages D and E exactly when they decoded (43_dispatcher.md
R173). -/
theorem received_ready_iff {s : State} (h : s.ready = false) : (received s).ready = true ↔
    s.inp.uartRxValid = true ∧ flagDone (appended s) = true ∧ headerAccepted (appended s) = true := by
  rw [received_ready h, Bool.and_eq_true, Bool.and_eq_true, and_assoc]

/-- A report pending after stages D and E is as a whole the decode of the buffer they leave (42_decoder.md R141). -/
theorem received_report_of_ready {s : State} (h : s.ready = false) (hready : (received s).ready = true) :
    (received s).report = reportOf cfg (unpack cfg (received s).payload) := by
  obtain ⟨hu, hdone, haccepted⟩ := (received_ready_iff h).mp hready
  have hrun : received s = postAppended (appended s) := if_pos hu
  rw [hrun, postAppended_report, if_pos ⟨hdone, haccepted⟩, payload_congr (postAppended_buf _)]

/-- An RC-path tick traces DEC_ACCEPT_RC exactly when it hands a pending report to stage G. -/
theorem decAcceptRc_mem_rcResult_trace {s : State} (h : s.ready = false) :
    .decAcceptRc ∈ (rcResult s.beginTick).trace ↔ (received (gapChecked (rcStart s))).ready = true := by
  have hready : (gapChecked (rcStart s)).ready = false := by simpa using h
  rw [rcResult_trace h, received_ready_iff hready, gapChecked_inp, State.noteOp_inp, State.beginTick_inp, ← and_assoc,
    ← Bool.and_eq_true]
  by_cases hdone : (s.nextInputs.uartRxValid && flagDone (appended (gapChecked (rcStart s)))) = true
  · rw [if_pos hdone]
    cases haccepted : headerAccepted (appended (gapChecked (rcStart s))) <;> simp [hdone]
  · rw [if_neg hdone]
    refine iff_of_false ?_ fun hd => hdone hd.1
    split
    · simp
    · split <;> simp

/-- The report an RC-path tick leaves is the one handed to stage G, and so is the buffer it was decoded from. -/
theorem rcResult_report_payload (s : State) :
    (rcResult s.beginTick).report = (received (gapChecked (rcStart s))).report ∧
      (rcResult s.beginTick).payload = (received (gapChecked (rcStart s))).payload :=
  ⟨dispatched_report _, payload_congr (dispatched_buf _)⟩

/-- What an RC-path tick sends is the report it leaves (43_dispatcher.md R171). -/
theorem rcResult_hidReport {s : State} (h : (rcResult s.beginTick).out.hidSend = true) :
    (rcResult s.beginTick).out.hidReport = reportBytes cfg (rcResult s.beginTick).report := by
  rw [rcResult_hidSend, Bool.and_eq_true] at h
  obtain ⟨hready, hhid⟩ := h
  have hhid' : (received (gapChecked (rcStart s))).inp.hidReady = true := by simpa using hhid
  unfold rcResult
  rw [dispatched_out, if_pos ⟨hready, hhid'⟩, dispatched_report]

/-- A bridge-path tick sends no report (44_arbiter.md R188). -/
theorem bridge_hidSend (s : State) : (relayed (arbitrated s.beginTick)).out.hidSend = false := by
  rw [relayed_out, arbitrated_out]
  rfl

/-- An RC-path tick that changes the report decoded. -/
theorem rcResult_report_traced {s : State} (h : s.ready = false) (hw : (rcResult s.beginTick).report ≠ s.report) :
    .decAcceptRc ∈ (rcResult s.beginTick).trace := by
  rw [decAcceptRc_mem_rcResult_trace h, received_ready_iff (by simpa using h)]
  by_contra hn
  have hkept := (received_report_ready hn).1
  exact hw ((rcResult_report_payload s).1.trans (by simpa using hkept))

/-- An RC-path tick that decoded leaves the decode of the buffer it leaves. -/
theorem rcResult_report_decoded {s : State} (h : s.ready = false) (hd : .decAcceptRc ∈ (rcResult s.beginTick).trace) :
    (rcResult s.beginTick).report = reportOf cfg (unpack cfg (rcResult s.beginTick).payload) := by
  obtain ⟨hreport, hpayload⟩ := rcResult_report_payload s
  rw [hreport, hpayload]
  exact received_report_of_ready (by simpa using h) ((decAcceptRc_mem_rcResult_trace h).mp hd)

/-- An RC-path tick that sends decoded (43_dispatcher.md R173). -/
theorem decAcceptRc_mem_of_hidSend {s : State} (h : s.ready = false)
    (hsend : (rcResult s.beginTick).out.hidSend = true) : .decAcceptRc ∈ (rcResult s.beginTick).trace := by
  rw [rcResult_hidSend, Bool.and_eq_true] at hsend
  exact (decAcceptRc_mem_rcResult_trace h).mpr hsend.1

/-- Settles O42: only the RC path decodes and sends, it sends only in a tick that decoded, and neither the report nor the
buffer changes between the decode and the end of the tick. -/
theorem sentReportsComeFromOneDecode : Obligations.SentReportsComeFromOneDecode := by
  intro s t hs h
  rcases step_cases h with ⟨hr, rfl⟩ | ⟨-, -, rfl⟩ | ⟨-, -, -, -, rfl⟩
  · have htrace : (wasReset s.beginTick).trace = [.reset] := rfl
    have hsend : (wasReset s.beginTick).out.hidSend = false := rfl
    have hrst : (wasReset s.beginTick).inp.rst = true := hr
    simp [htrace, hsend, hrst]
  · exact ⟨fun hw => absurd (bridge_sameRc s).report hw, fun hd => absurd hd (bridge_no_report s).1,
      fun hsend => absurd hsend (by simp [bridge_hidSend])⟩
  · have hdecoded := rcResult_report_decoded hs.not_ready
    refine ⟨fun hw _ => rcResult_report_traced hs.not_ready hw, hdecoded, fun hsend => ?_⟩
    rw [rcResult_hidReport hsend, hdecoded (decAcceptRc_mem_of_hidSend hs.not_ready hsend)]

/-! ## The write index that does not exist (20_memory.md R51; entry 8) -/

/-- An index at or above `P_BUF_CAP` is no place to write. -/
theorem State.bufWrite_of_no_room {s : State} {i : Nat} (h : cfg.bufCap ≤ i) (b : Byte) :
    s.bufWrite i b = .fault .bufferIndex := if_neg (Nat.not_lt.mpr h)

/-- Settles O12: the buffer write stops, and RX_APPEND with it. -/
theorem rxAppendStopsWithoutRoom : Obligations.RxAppendStopsWithoutRoom := by
  intro s hpos
  show execRxAppend s = _
  unfold execRxAppend
  rw [State.bufWrite_of_no_room hpos, andThen_fault]

end Sys2Proof.Machine
end

