-- ==== Sys2Proof/Proofs/Encoding.lean ====
section
/-! PROOFS. The encoding (30_encoding.md): selector words and their operations, the payload and the report, the lines of
a `frame`, arranged operations, and an RC-channels frame on its way to the host. -/

/-! ## Selector words and the operations they fire (30_encoding.md R78 to R88) -/
namespace Sys2Proof

theorem selOfBits_cons_toNat (b : Bool) (bs : List Bool) :
    (selOfBits (b :: bs)).toNat = (b.toNat + 2 * (selOfBits bs).toNat) % 2 ^ 16 := by
  have htwo : (2 : Sel).toNat = 2 := rfl
  rw [selOfBits, BitVec.toNat_add, BitVec.toNat_mul, BitVec.toNat_ofNat, htwo]
  omega

/-- A selector word made of bits has no bit above them. -/
theorem selOfBits_toNat_lt : ∀ bs : List Bool, (selOfBits bs).toNat < 2 ^ bs.length
  | [] => Nat.one_pos
  | b :: bs => by
    have ih := selOfBits_toNat_lt bs
    have hb := b.toNat_lt
    rw [selOfBits_cons_toNat, List.length_cons, Nat.pow_succ]
    omega

/-- Every word without a bit at or above `n` is made of `n` bits. -/
theorem exists_selOfBits : ∀ (n : Nat) (w : Sel), w.toNat < 2 ^ n → ∃ bs, bs.length = n ∧ selOfBits bs = w
  | 0, w, h => ⟨[], rfl, BitVec.eq_of_toNat_eq (Nat.lt_one_iff.mp h).symm⟩
  | n + 1, w, h => by
    have hhalf : (w >>> 1).toNat = w.toNat / 2 := by
      rw [BitVec.toNat_ushiftRight, Nat.shiftRight_eq_div_pow, Nat.pow_one]
    obtain ⟨bs, hlen, hbs⟩ := exists_selOfBits n (w >>> 1) (by omega)
    have hbit : (w.getLsbD 0).toNat = w.toNat % 2 := by
      rw [BitVec.getLsbD, Nat.toNat_testBit, Nat.pow_zero, Nat.div_one]
    refine ⟨w.getLsbD 0 :: bs, by rw [List.length_cons, hlen], BitVec.eq_of_toNat_eq ?_⟩
    rw [selOfBits_cons_toNat, hbs, hhalf, hbit]
    omega

/-- The word of a well-formed operation fires it: its row matches, whatever its operands are. -/
theorem mem_firing_encode {i : Instr} (h : i.wellFormed = true) : i ∈ firing (encode i).1 (encode i).2 := by
  cases i with
  | decIgnore addr typ =>
    have hother : ¬(addr = Machine.cfg.devAddr ∧ typ = Machine.cfg.frameType) := by
      rintro ⟨rfl, rfl⟩
      cases h
    simp only [encode, firing_hdr, if_neg hother, List.mem_singleton]
  | brU2s s2uGo bto => cases s2uGo <;> simp [encode]
  | brS2u u2sGo bto => cases u2sGo <;> simp [encode]
  | _ => simp [encode]

/-- Every operation the word fires is well-formed and has this very word: its row's free bits are its operands. -/
abbrev FiresOnlyItsOwn (f : Format) (w : Sel) : Prop := ∀ i ∈ firing f w, i.wellFormed = true ∧ encode i = (f, w)

theorem firesOnlyItsOwn_hdr (w : Sel) : FiresOnlyItsOwn .hdr w := by
  intro i hi
  rw [firing_hdr_word] at hi
  split at hi
  · rename_i haccepted
    rw [List.mem_singleton.mp hi, haccepted]
    exact ⟨rfl, rfl⟩
  · rename_i hother
    rw [List.mem_singleton.mp hi]
    refine ⟨?_, Prod.ext rfl (hdrWord_fields w)⟩
    rw [← hdrWord_fields w, hdrWord_inj, not_and_or] at hother
    simpa [Instr.wellFormed] using hother

/-- In the bit formats there are at most eight words, so the opcode map can be run on each. -/
theorem firesOnlyItsOwn {f : Format} {w : Sel} (hw : w.toNat < 2 ^ f.width) : FiresOnlyItsOwn f w := by
  obtain ⟨bs, hlen, rfl⟩ := exists_selOfBits f.width w hw
  cases f with
  | rst =>
    obtain ⟨r, rfl⟩ := List.length_eq_one_iff.mp hlen
    exact (by decide : ∀ r, FiresOnlyItsOwn .rst (selOfBits [r])) r
  | arb =>
    obtain ⟨m, v, rfl⟩ := List.length_eq_two.mp hlen
    exact (by decide : ∀ m v, FiresOnlyItsOwn .arb (selOfBits [m, v])) m v
  | br =>
    obtain ⟨u, s, b, rfl⟩ := List.length_eq_three.mp hlen
    exact (by decide : ∀ u s b, FiresOnlyItsOwn .br (selOfBits [u, s, b])) u s b
  | rxg =>
    obtain ⟨g, rfl⟩ := List.length_eq_one_iff.mp hlen
    exact (by decide : ∀ g, FiresOnlyItsOwn .rxg (selOfBits [g])) g
  | rxb =>
    obtain ⟨u, rfl⟩ := List.length_eq_one_iff.mp hlen
    exact (by decide : ∀ u, FiresOnlyItsOwn .rxb (selOfBits [u])) u
  | rxp =>
    obtain ⟨d, u, rfl⟩ := List.length_eq_two.mp hlen
    exact (by decide : ∀ d u, FiresOnlyItsOwn .rxp (selOfBits [d, u])) d u
  | hdr => exact firesOnlyItsOwn_hdr _
  | dsp =>
    obtain ⟨r, h, rfl⟩ := List.length_eq_two.mp hlen
    exact (by decide : ∀ r h, FiresOnlyItsOwn .dsp (selOfBits [r, h])) r h

/-- The selector word of an operation has no bit above its format's width. -/
theorem encode_fits (i : Instr) : (encode i).2.toNat < 2 ^ (encode i).1.width := by
  cases i with
  | decAcceptRc | decIgnore => exact BitVec.isLt _
  | _ => exact selOfBits_toNat_lt _

/-- A selector word within its format decodes to what it fires. -/
theorem decode_toNat {f : Format} {w : Sel} (hw : w.toNat < 2 ^ f.width) : decode f w.toNat = .ok (firing f w) := by
  rw [decode, if_pos hw, BitVec.ofNat_toNat, BitVec.setWidth_eq]

/-- What decodes is within its format, and the number of a selector word. -/
theorem decode_eq_ok {f : Format} {w : Nat} {is : List Instr} (h : decode f w = .ok is) :
    ∃ v : Sel, v.toNat = w ∧ v.toNat < 2 ^ f.width ∧ firing f v = is := by
  unfold decode at h
  split at h
  · rename_i hw
    have hwidth : f.width ≤ 16 := by cases f <;> decide
    have hword : (BitVec.ofNat 16 w).toNat = w :=
      Nat.mod_eq_of_lt (hw.trans_le (Nat.pow_le_pow_right Nat.two_pos hwidth))
    exact ⟨BitVec.ofNat 16 w, hword, hword.symm ▸ hw, by injection h⟩
  · cases h

/-- Settles O21: the word fires the operation, and nothing that has another word. -/
theorem decodeOfEncodeGivesTheOperation : Obligations.DecodeOfEncodeGivesTheOperation := fun i hi =>
  ⟨_, decode_toNat (encode_fits i), mem_firing_encode hi, fun j hj => (firesOnlyItsOwn (encode_fits i) j hj).2⟩

/-- Settles O22: what decodes is a word within its format, and such a word fires only its own operations. -/
theorem encodeOfDecodeGivesTheWord : Obligations.EncodeOfDecodeGivesTheWord := by
  intro f w is h i hi
  obtain ⟨v, rfl, hv, rfl⟩ := decode_eq_ok h
  obtain ⟨hwf, henc⟩ := firesOnlyItsOwn hv i hi
  exact ⟨hwf, by rw [henc], by rw [henc]⟩

/-- Settles O23, by running the opcode map on each written word. -/
theorem writtenWordsDecode : Obligations.WrittenWordsDecode :=
  ⟨rfl, rfl, rfl, rfl, rfl, rfl, rfl, rfl, rfl, rfl⟩

end Sys2Proof

namespace Sys2Proof.Machine

/-! ## The stages run what their selector words decode to (30_encoding.md R78) -/

/-- The word a stage builds is within its format (30_encoding.md R79 to R86). -/
theorem selector_fits (f : Format) (s : State) : (selector f s).toNat < 2 ^ f.width := by
  cases f with
  | hdr => exact BitVec.isLt _
  | _ => exact selOfBits_toNat_lt _

theorem decode_selector (f : Format) (s : State) : decode f (selector f s).toNat = .ok (fire f s) :=
  decode_toNat (selector_fits f s)

theorem runStage_of_decode {f : Format} {s : State} {is : List Instr}
    (h : decode f (selector f s).toNat = .ok is) : runStage f s = runOps is s := by
  rw [decode_selector] at h
  injection h with h
  rw [runStage, h]

/-- Stage F goes through `exec` like every other stage, though RX_COMPLETE runs it (42_decoder.md R140). -/
theorem runHeader_eq_runStage (s : State) : runHeader s = runStage .hdr s := by
  rw [runHeader_eq, decoded, runStage, fire_hdr]
  split
  · exact (runOps_one .decAcceptRc s).symm
  · exact (runOps_one (.decIgnore _ _) s).symm

/-- Settles O25: a stage's word is within its format, so it decodes to what the stage fires. -/
theorem stageRunsDecodedOperations : Obligations.StageRunsDecodedOperations := by
  intro f s
  refine ⟨⟨_, decode_selector f s, rfl⟩, fun i h => ?_, fun i j h => ?_, runHeader_eq_runStage s⟩
  · rw [runStage_of_decode h, runOps_one]
  · rw [runStage_of_decode h, runOps_cons]
    exact congrArg _ (funext (runOps_one j))

/-- Settles O27. -/
theorem inputsComeFromTheScript : Obligations.InputsComeFromTheScript := by
  intro s i is
  constructor
  · intro h
    exact ⟨nextInputs_cons h, by rw [State.beginTick_script, h, List.tail_cons]⟩
  · intro h
    exact ⟨by rw [State.nextInputs, h, List.headD_nil], by rw [State.beginTick_script, h, List.tail_nil]⟩

/-! ## The payload and the report (30_encoding.md R74, R76, R91) -/

/-- Settles O48: bit `j` of the 11-bit field at `11i` is bit `11i + j` of the payload number. -/
theorem channelBitsComeFromTheirPayloadBits : Obligations.ChannelBitsComeFromTheirPayloadBits := by
  intro q i j hi hj
  have hbit : 11 * i + j < cfg.payloadBits := by rw [cfg_payloadBits]; omega
  rw [unpack_getElem cfg rfl q i hi, BitVec.getLsbD_extractLsb', payloadNumber_getLsbD cfg q _ hbit]
  simp only [decide_eq_true hj, Bool.true_and]

/-- Settles O49: channel `i`'s bit `j` is bit `11i + j` of the number, whether it is cut in bytes or in channels. -/
theorem unpackOfPackIsTheChannels : Obligations.UnpackOfPackIsTheChannels := by
  intro ch
  refine Vector.ext fun i hi => BitVec.eq_of_getLsbD_eq fun j hj => ?_
  have hi' : i < 16 := hi
  have hj' : j < 11 := hj
  rw [channelBitsComeFromTheirPayloadBits (pack cfg ch) i j hi hj, pack_getLsbD ch _ _ (by omega) (by omega)]
  have hn : 8 * ((11 * i + j) / 8) + (11 * i + j) % 8 = 11 * i + j := Nat.div_add_mod _ _
  have hch : (11 * i + j) / 11 = i := by omega
  have hb : (11 * i + j) % 11 = j := by omega
  simp only [hn, hch, hb]

theorem pack_unpack (q : Payload) : pack cfg (unpack cfg q) = q := by
  refine Vector.ext fun k hk => BitVec.eq_of_getLsbD_eq fun b hb => ?_
  have hk' : k < 22 := hk
  rw [pack_getLsbD _ k b hk hb, channelBitsComeFromTheirPayloadBits q _ _ (by omega) (by omega)]
  have hn : 11 * ((8 * k + b) / 11) + (8 * k + b) % 11 = 8 * k + b := Nat.div_add_mod _ _
  have hbyte : (8 * k + b) / 8 = k := by omega
  have hbit : (8 * k + b) % 8 = b := by omega
  simp only [hn, hbyte, hbit]

/-- Settles O50: a left inverse makes UNPACK injective. -/
theorem packOfUnpackIsThePayload : Obligations.PackOfUnpackIsThePayload :=
  ⟨pack_unpack, Function.LeftInverse.injective pack_unpack⟩

/-- Byte `2k + h` is byte `h` of axis `k`. -/
theorem reportBytes_axis (r : Report) (k h : Nat) (hk : k < 8) (hh : h < 2) :
    (reportBytes cfg r)[2 * k + h]'(by show _ < 17; omega) = r.axis[k].extractLsb' (8 * h) 8 := by
  have hdiv : (2 * k + h) / 2 = k := by omega
  have hmod : (2 * k + h) % 2 = h := by omega
  simp [reportBytes, hdiv, hmod, hk]

theorem reportBytes_sw (r : Report) : (reportBytes cfg r)[16]'(by decide) = r.sw := by
  simp [reportBytes]

/-- Settles O54. -/
theorem reportBytesLayout : Obligations.ReportBytesLayout := fun r k hk =>
  ⟨reportBytes_axis r k 0 hk Nat.two_pos, reportBytes_axis r k 1 hk Nat.one_lt_two, reportBytes_sw r⟩

/-! ## The lines of a `frame` (30_encoding.md R90, R91) -/

theorem time_add_succ_mul (us dus : Time) (k : Nat) :
    us + dus + BitVec.ofNat cfg.timeBits k * dus = us + BitVec.ofNat cfg.timeBits (k + 1) * dus := by
  rw [BitVec.ofNat_add, BitVec.add_mul, BitVec.one_mul]
  ac_rfl

/-- Line `k` presents byte `k` at `U + k · D`. -/
theorem frameLines_getElem? {us dus ms : Time} {bytes : List Byte} {k : Nat} {b : Byte} (h : bytes[k]? = some b) :
    (frameLines us dus ms bytes)[k]? = some (urxLine (us + BitVec.ofNat cfg.timeBits k * dus) ms b) := by
  induction bytes generalizing us k with
  | nil => cases h
  | cons c bytes ih =>
    cases k with
    | zero =>
      cases h
      simp [frameLines]
    | succ k => rw [frameLines, List.getElem?_cons_succ, ih h, time_add_succ_mul]

theorem scriptInputs_frame_getElem? {us dus ms : Time} {bytes : List Byte} {k : Nat} {b : Byte}
    (h : bytes[k]? = some b) : (scriptInputs [.frame us dus ms bytes])[k]? =
      some (lineInputs (urxLine (us + BitVec.ofNat cfg.timeBits k * dus) ms b)) := by
  rw [scriptInputs_frame, List.getElem?_map, frameLines_getElem? h, Option.map_some]

theorem scriptInputs_frame_length (us dus ms : Time) (bytes : List Byte) :
    (scriptInputs [.frame us dus ms bytes]).length = bytes.length := by
  rw [scriptInputs_frame, List.length_map, frameLines_length]

/-- Settles O57. -/
theorem frameLinesArePresentedInOrder : Obligations.FrameLinesArePresentedInOrder :=
  fun us dus ms bytes => ⟨frameLines_length us dus ms bytes, scriptInputs_frame_length us dus ms bytes, fun _ _ h =>
    ⟨frameLines_getElem? h, _, scriptInputs_frame_getElem? h, rfl, rfl, rfl, rfl, rfl, rfl, rfl, rfl, rfl⟩⟩

/-! ## Arranged operations (30_encoding.md R87; entry 20) -/

/-- The next step completes and performs the operation. -/
def Performs (s : State) (i : Instr) : Prop := ∃ t, step s = .next t ∧ i ∈ t.fired

/-- A stage whose selector word is the operation's own fires it. -/
theorem mem_fire_of_selector {f : Format} {s : State} {i : Instr} (hwf : i.wellFormed = true)
    (h : encode i = (f, selector f s)) : i ∈ fire f s := by
  have hi := mem_firing_encode hwf
  rwa [h] at hi

theorem elapsed32_self (x : Time) : elapsed32 x x = 0 := by simp [elapsed32]

theorem elapsed32_add (x d : Time) : elapsed32 (x + d) x = d.toNat := by simp [elapsed32]

/-- The arranged `now_ms` gives BTO the value asked for (30_encoding.md R81). -/
theorem bridgeTime_reached (s : State) (bto : Bool) :
    cfg.bridgeIdleMs ≤ elapsed32 (s.bridgeTime bto) s.brLastMs ↔ bto = true := by
  cases bto with
  | false => simp [State.bridgeTime, elapsed32_self]
  | true =>
    rw [State.bridgeTime, if_pos rfl, elapsed32_add]
    decide

/-! ### Reset and bridge-path ticks -/

theorem performs_reset {s : State} (hr : s.nextInputs.rst = true) : Performs s .reset :=
  ⟨_, step_reset hr, List.mem_singleton.mpr rfl⟩

/-- A bridge-path tick performs what the arbiter and the relay fire. -/
theorem performs_bridge {s : State} {i : Instr} (hr : s.nextInputs.rst = false) (hb : onBridge s.beginTick)
    (hi : i ∈ fire .arb s.beginTick ∨ i ∈ fire .br (arbitrated s.beginTick)) : Performs s i :=
  ⟨_, step_bridge hr hb, (mem_bridge_fired hb).mpr hi⟩

/-- In BRIDGING with every sink ready, a VSER byte or not, a UART byte or not, the timeout run or not. -/
def State.relayTick (s : State) (vrx urx bto : Bool) : State :=
  (s.setMode .bridging).feed { s.calm with vserRxValid := vrx, uartRxValid := urx, nowMs := s.bridgeTime bto }

/-- The three choices are the relay's selector word (30_encoding.md R81). -/
theorem selector_br_relayTick (s : State) (vrx urx bto : Bool) :
    selector .br (arbitrated (s.relayTick vrx urx bto).beginTick) = selOfBits [vrx, urx, bto] := by
  have hbto : flagBto cfg (arbitrated (s.relayTick vrx urx bto).beginTick) = bto := by
    rw [Bool.eq_iff_iff, flagBto_iff, ← bridgeTime_reached s bto]
    rfl
  have hu2s : flagU2sGo (arbitrated (s.relayTick vrx urx bto).beginTick) = vrx := Bool.and_true vrx
  have hs2u : flagS2uGo (arbitrated (s.relayTick vrx urx bto).beginTick) = urx := Bool.and_true urx
  rw [selector, hbto, hu2s, hs2u]

/-- The operation whose word the three choices are is performed. -/
theorem performs_relayTick (s : State) {i : Instr} {vrx urx bto : Bool} (hwf : i.wellFormed = true)
    (h : encode i = (.br, selOfBits [vrx, urx, bto])) : Performs (s.relayTick vrx urx bto) i :=
  performs_bridge rfl (.inl rfl) (.inr (mem_fire_of_selector hwf (by rw [h, selector_br_relayTick])))

/-! ### RC-path ticks -/

/-- An RC-path tick without a byte. -/
theorem performs_no_byte {s : State} {i : Instr} (hm : s.mode = .idle) (hr : s.nextInputs.rst = false)
    (hv : s.nextInputs.vserRxValid = false) (hu : s.nextInputs.uartRxValid = false)
    (hi : i ∈ (rcResult s.beginTick).fired) : Performs s i :=
  ⟨_, step_rc hr hm hv fun h => absurd h (by simp [hu]), hi⟩

/-- With no report pending and no byte to complete a frame, none is pending for stage G either. -/
theorem performs_dispIdle (s : State) (hidr : Bool) :
    Performs (((s.setMode .idle).setReady false).feed { s.calm with hidReady := hidr }) (.dispIdle hidr) := by
  refine performs_no_byte rfl rfl rfl rfl (mem_rcResult_fired.mpr (.inr (.inr (.inr (.inr (.inr ?_))))))
  generalize hx : gapChecked (rcStart (((s.setMode .idle).setReady false).feed { s.calm with hidReady := hidr })) = x
  have hready : x.ready = false := hx ▸ gapChecked_ready _
  have hinp : x.inp = { s.calm with hidReady := hidr } := hx ▸ gapChecked_inp _
  refine mem_fire_of_selector rfl ?_
  rw [selector, received_ready hready, received_inp, hinp]
  rfl

/-- A byte is presented in the next tick, at a time that leaves no gap. -/
def State.byteTick (s : State) (hidReady : Bool) : State :=
  s.feed { s.calm with uartRxValid := true, hidReady := hidReady }

/-- The state in which stage E of that tick runs. -/
def State.byteTaken (s : State) (hidReady : Bool) : State := appended (rcStart (s.byteTick hidReady))

theorem byteTick_no_gap (s : State) (hidReady : Bool) : flagGap cfg (rcStart (s.byteTick hidReady)) = false := by
  rw [← Bool.not_eq_true, flagGap_iff]
  rintro ⟨-, hgap⟩
  have hzero : elapsed32 s.lastRxUs s.lastRxUs = 0 := elapsed32_self _
  exact absurd (hzero ▸ hgap) (Nat.not_lt_zero _)

section
variable (s : State) (hidReady : Bool)
theorem State.byteTaken_hidReady : (s.byteTaken hidReady).inp.hidReady = hidReady := by
  rw [State.byteTaken, appended_inp]
  rfl
theorem State.byteTaken_bufRead (hw : Memory.wf s.buf = true) (a : Nat) :
    (s.byteTaken hidReady).bufRead a = if a = s.pos then 0x00 else s.bufRead a := by
  have hw' : Memory.wf (rcStart (s.byteTick hidReady)).buf = true := hw
  rw [State.byteTaken, appended_bufRead _ hw']
  rfl
end

/-- An RC-path tick with a byte performs what stages D, E, F and G fire, if there is room for the byte. -/
theorem performs_byteTick {s : State} {i : Instr} {hidReady : Bool} (hm : s.mode = .idle) (hp : s.pos < cfg.bufCap)
    (hi : i = .rxAppend ∨ i ∈ fire .rxp (s.byteTaken hidReady) ∨
      (flagDone (s.byteTaken hidReady) = true ∧ i ∈ fire .hdr (s.byteTaken hidReady)) ∨
      i ∈ fire .dsp (postAppended (s.byteTaken hidReady))) : Performs (s.byteTick hidReady) i := by
  have hgap := gapChecked_of_no_gap (byteTick_no_gap s hidReady)
  have hreceived : received (rcStart (s.byteTick hidReady)) = postAppended (s.byteTaken hidReady) := if_pos rfl
  refine ⟨_, step_rc rfl hm rfl fun _ => hgap.symm ▸ hp, mem_rcResult_fired.mpr ?_⟩
  rw [hgap, hreceived]
  rcases hi with hi | hi | hi | hi
  · exact .inr (.inr (.inl ⟨rfl, hi⟩))
  · exact .inr (.inr (.inr (.inr (.inl ⟨rfl, .inl hi⟩))))
  · exact .inr (.inr (.inr (.inr (.inl ⟨rfl, .inr hi⟩))))
  · exact .inr (.inr (.inr (.inr (.inr hi))))

/-! ### A frame of two bytes that completes -/

/-- The byte of the next tick is at index 1, and 0 as the declared length of the frame. -/
theorem headerReady_done (s : State) (addr typ : Byte) (hidReady : Bool) :
    flagDone ((s.headerReady addr typ).byteTaken hidReady) = true :=
  flagDone_iff.mpr ⟨le_rfl, rfl⟩

theorem headerReady_wf {s : State} (hw : Memory.wf s.buf = true) (addr typ : Byte) :
    Memory.wf (s.headerReady addr typ).buf = true :=
  Memory.write_wf 2 typ (Memory.write_wf 0 addr hw)

theorem headerReady_bufRead {s : State} (hw : Memory.wf s.buf = true) (addr typ : Byte) (a : Nat) :
    (s.headerReady addr typ).bufRead a = if a = 2 then typ else if a = 0 then addr else s.bufRead a := by
  show Memory.read (Memory.write (Memory.write s.buf 0 addr) 2 typ) a = _
  rw [Memory.read_write (Memory.write_wf 0 addr hw), Memory.read_write hw]
  rfl

/-- The arranged header is the one the decoder reads: the byte between its two bytes comes with the tick. -/
theorem selector_hdr_headerReady {s : State} (hw : Memory.wf s.buf = true) (addr typ : Byte) (hidReady : Bool) :
    selector .hdr ((s.headerReady addr typ).byteTaken hidReady) = hdrWord addr typ := by
  have hread := State.byteTaken_bufRead _ hidReady (headerReady_wf hw addr typ)
  have hpos : (s.headerReady addr typ).pos = 1 := rfl
  simp [selector, hread, hpos, headerReady_bufRead hw]

/-- The operation the arranged header selects is performed. -/
theorem performs_headerReady {s : State} (hw : Memory.wf s.buf = true) {i : Instr} {addr typ : Byte}
    (hwf : i.wellFormed = true) (h : encode i = (.hdr, hdrWord addr typ)) :
    Performs ((s.headerReady addr typ).byteTick true) i :=
  performs_byteTick rfl (show 1 < 67 by decide) (.inr (.inr (.inl ⟨headerReady_done s addr typ true,
    mem_fire_of_selector hwf (by rw [h, selector_hdr_headerReady hw])⟩)))

/-- After the accepted header a report is pending, and `hid_ready` chooses what becomes of it (43_dispatcher.md
R173). -/
theorem performs_dispatch {s : State} (hw : Memory.wf s.buf = true) {i : Instr} {hidReady : Bool}
    (hwf : i.wellFormed = true) (h : encode i = (.dsp, selOfBits [true, hidReady])) :
    Performs ((s.headerReady cfg.devAddr cfg.frameType).byteTick hidReady) i := by
  refine performs_byteTick rfl (show 1 < 67 by decide) (.inr (.inr (.inr (mem_fire_of_selector hwf ?_))))
  have haccepted : headerAccepted ((s.headerReady cfg.devAddr cfg.frameType).byteTaken hidReady) = true :=
    headerAccepted_iff.mpr (hdrWord_inj.mp (selector_hdr_headerReady hw _ _ _))
  rw [h, selector, postAppended_ready, if_pos ⟨headerReady_done s _ _ _, haccepted⟩, postAppended_inp,
    State.byteTaken_hidReady]

/-- Stage E after the arranged byte, by DONE and FULL (30_encoding.md R84). -/
theorem performs_postAppend {s : State} {i : Instr} (hm : s.mode = .idle) (hp : s.pos < cfg.bufCap)
    (hwf : i.wellFormed = true)
    (h : encode i = (.rxp, selOfBits [flagDone (s.byteTaken true), flagFull cfg (s.byteTaken true)])) :
    Performs (s.byteTick true) i :=
  performs_byteTick hm hp (.inr (.inl (mem_fire_of_selector hwf h)))

/-- Every arranged operation is performed: the arrangement makes its stage's selector word the operation's own. -/
theorem performs_arrange {s : State} (hw : Memory.wf s.buf = true) {i : Instr} (hwf : i.wellFormed = true) :
    Performs (s.arrange i) i := by
  cases i with
  | reset => exact performs_reset rfl
  | arbIdleRc => exact performs_no_byte rfl rfl rfl rfl (mem_rcResult_fired.mpr (.inl rfl))
  | arbEnter => exact performs_bridge rfl (.inr rfl) (.inl (mem_fire_of_selector hwf rfl))
  | arbBridge vrx => exact performs_bridge rfl (.inl rfl) (.inl (mem_fire_of_selector hwf rfl))
  | brU2s s2uGo bto => exact performs_relayTick s hwf rfl
  | brS2u u2sGo bto => exact performs_relayTick s hwf rfl
  | brHold => exact performs_relayTick s hwf rfl
  | arbExit => exact performs_relayTick s hwf rfl
  | rxGapReset =>
    refine performs_no_byte rfl rfl rfl rfl (mem_rcResult_fired.mpr (.inr (.inl ⟨?_, rfl⟩)))
    have helapsed := elapsed32_add s.lastRxUs (BitVec.ofNat cfg.timeBits (cfg.gapUs + 1))
    exact flagGap_iff.mpr ⟨Nat.one_le_iff_ne_zero.mp (Nat.le_max_left 1 s.pos), helapsed ▸ (by decide)⟩
  | rxNop => exact performs_no_byte rfl rfl rfl rfl (mem_rcResult_fired.mpr (.inr (.inr (.inr (.inl ⟨rfl, rfl⟩)))))
  | rxAppend => exact performs_byteTick rfl ((Nat.min_le_right _ _).trans_lt (by decide)) (.inl rfl)
  | rxComplete full =>
    cases full with
    | false => exact performs_postAppend rfl (show 1 < 67 by decide) hwf rfl
    | true => exact performs_postAppend rfl (show 66 < 67 by decide) hwf rfl
  | rxOverflow => exact performs_postAppend rfl (show 66 < 67 by decide) hwf rfl
  | rxContinue => exact performs_postAppend rfl (show 0 < 67 by decide) hwf rfl
  | decAcceptRc => exact performs_headerReady hw hwf rfl
  | decIgnore addr typ => exact performs_headerReady hw hwf rfl
  | dispIdle hidr => exact performs_dispIdle s hidr
  | dispSend => exact performs_dispatch hw hwf rfl
  | dispDrop => exact performs_dispatch hw hwf rfl

/-- A table word's operation is one that some format's decoder gives, and so is well-formed. -/
theorem wellFormed_of_decodeTableWord {nbits w : Nat} {i : Instr} (h : decodeTableWord nbits w = some i) :
    i.wellFormed = true := by
  obtain ⟨r, -, hi⟩ := List.mem_flatMap.mp (List.mem_of_head? h)
  cases hd : decode r.fmt w with
  | ok is => exact (encodeOfDecodeGivesTheWord _ _ _ hd i (by simpa only [hd] using hi)).1
  | error e => simp [hd] at hi

/-- Settles O24: what a table word stands for is well-formed, so its arrangement performs it too. -/
theorem arrangedOperationRuns : Obligations.ArrangedOperationRuns := by
  refine fun s hw => ⟨fun i hi => performs_arrange hw hi, fun nbits w i h => ?_⟩
  rw [State.withFetchWord, h]
  exact performs_arrange hw (wellFormed_of_decodeTableWord h)

/-! ## Frame attempts over a run (41_receiver.md R127) -/

/-- The bytes of an attempt neither complete a frame nor fill the buffer: the second is the declared length
(30_encoding.md R71, R84). -/
structure Unfinished (bytes : List Byte) : Prop where
  room : bytes.length < cfg.bufCap
  short : ∀ len, bytes[1]? = some len → bytes.length < len.toNat + 2

/-- What an unfinished attempt began with was unfinished too. -/
theorem Unfinished.of_append {bytes more : List Byte} (h : Unfinished (bytes ++ more)) : Unfinished bytes where
  room := by
    have hroom := h.room
    rw [List.length_append] at hroom
    omega
  short len hlen := by
    have hshort := h.short len (List.getElem?_append_left (List.getElem?_eq_some_iff.mp hlen).1 ▸ hlen)
    rw [List.length_append] at hshort
    omega

/-- An idle tick boundary at which these bytes of the attempt have been taken. -/
structure HoldsBytes (s : State) (bytes : List Byte) : Prop where
  boundary : AtBoundary s
  mode : s.mode = .idle
  pos : s.pos = bytes.length
  stored : ∀ a b, bytes[a]? = some b → s.bufRead a = b

theorem holdsBytes_nil {s : State} (hs : AtBoundary s) (hm : s.mode = .idle) (hp : s.pos = 0) : HoldsBytes s [] :=
  ⟨hs, hm, hp, fun _ _ h => by cases h⟩

/-- A byte stored at the write position comes after the bytes held. -/
theorem HoldsBytes.stored_append {s t : State} {bytes : List Byte} {b : Byte} (h : HoldsBytes s bytes)
    (ht : ∀ a, t.bufRead a = if a = s.pos then b else s.bufRead a) (a : Nat) (c : Byte)
    (hc : (bytes ++ [b])[a]? = some c) : t.bufRead a = c := by
  rw [ht, h.pos]
  split
  · rename_i ha
    simpa [ha] using hc
  · rename_i ha
    have hlt := (List.getElem?_eq_some_iff.mp hc).1
    rw [List.length_append, List.length_singleton] at hlt
    rw [List.getElem?_append_left (by omega)] at hc
    exact h.stored a c hc

/-- The declared length stage E compares with is the second byte of the attempt (41_receiver.md R122). -/
theorem HoldsBytes.lengthAfter {s : State} {bytes : List Byte} (h : HoldsBytes s bytes) (b : Byte) (hp : 1 ≤ s.pos) :
    (bytes ++ [b])[1]? = some (s.lengthAfter b) := by
  have hpos := h.pos
  by_cases hone : s.pos = 1
  · rw [State.lengthAfter, if_pos hone, List.getElem?_append_right (by omega), ← hpos, hone]
    rfl
  · have hlt : 1 < bytes.length := by omega
    rw [State.lengthAfter, if_neg hone, List.getElem?_append_left hlt, h.boundary.length_captured (by omega),
      h.stored 1 _ (List.getElem?_eq_getElem hlt), List.getElem?_eq_getElem hlt]

/-- DONE after the byte `b`, from the bytes of the attempt (30_encoding.md R84). -/
theorem HoldsBytes.done_iff {s : State} {bytes : List Byte} (h : HoldsBytes s bytes) (b : Byte) :
    (2 ≤ s.pos + 1 ∧ s.pos + 1 = (s.lengthAfter b).toNat + 2) ↔
      ∃ len, (bytes ++ [b])[1]? = some len ∧ (bytes ++ [b]).length = len.toNat + 2 := by
  rw [List.length_append, List.length_singleton, ← h.pos]
  constructor
  · rintro ⟨hpos, hlen⟩
    exact ⟨_, h.lengthAfter b (by omega), hlen⟩
  · rintro ⟨len, hsecond, hlen⟩
    have hpos : 1 ≤ s.pos := by omega
    rw [h.lengthAfter b hpos] at hsecond
    cases hsecond
    exact ⟨by omega, hlen⟩

theorem attemptGoesOn_cons {n : Nat} {last : Time} {i : Inputs} {is : List Inputs} :
    attemptGoesOn n last (i :: is) = true ↔ i.rst = false ∧ i.vserRxValid = false ∧
      (n = 0 ∨ elapsed32 i.nowUs last ≤ cfg.gapUs) ∧
      (if i.uartRxValid then attemptGoesOn (n + 1) i.nowUs is else attemptGoesOn n last is) = true := by
  simp [attemptGoesOn, and_assoc]

theorem HoldsBytes.keepsAttempt {s : State} {bytes : List Byte} {i : Inputs} {is js : List Inputs}
    (h : HoldsBytes s bytes) (hscript : s.script = i :: is)
    (hgo : attemptGoesOn bytes.length s.lastRxUs (i :: js) = true) : KeepsAttempt s i is := by
  obtain ⟨hr, hv, hgap, -⟩ := attemptGoesOn_cons.mp hgo
  exact ⟨hscript, h.mode, hr, hv, h.pos ▸ hgap⟩

/-- A tick of an attempt that stays unfinished: it takes its byte, if it has one, and shows nothing. -/
theorem HoldsBytes.step_unfinished {s : State} {bytes : List Byte} {i : Inputs} {is js : List Inputs}
    (h : HoldsBytes s bytes) (hscript : s.script = i :: is)
    (hgo : attemptGoesOn bytes.length s.lastRxUs (i :: js) = true) (hopen : Unfinished (bytes ++ uartBytes [i])) :
    ∃ t, step s = .next t ∧ HoldsBytes t (bytes ++ uartBytes [i]) ∧ t.script = is ∧
      attemptGoesOn (bytes ++ uartBytes [i]).length t.lastRxUs js = true ∧ t.report = s.report ∧ t.trace = [] := by
  have hkeep := h.keepsAttempt hscript hgo
  obtain ⟨-, -, -, hrest⟩ := attemptGoesOn_cons.mp hgo
  rw [uartBytes_cons, uartBytes_nil, List.append_nil] at hopen ⊢
  cases hu : i.uartRxValid with
  | false =>
    obtain ⟨t, hstep, htrace, hm, hp, -, hus, hreport, hs', hread⟩ := attempt_wait h.boundary hkeep hu
    simp only [hu, Bool.false_eq_true, if_false, List.append_nil] at hrest ⊢
    have hbytes : HoldsBytes t bytes :=
      ⟨boundaryInvariantIsKept s t h.boundary hstep, hm, hp.trans h.pos,
        fun a b hb => (hread a).trans (h.stored a b hb)⟩
    exact ⟨t, hstep, hbytes, hs', hus ▸ hrest, hreport, htrace⟩
  | true =>
    simp only [hu, if_true] at hrest hopen ⊢
    have hlen : (bytes ++ [i.uartRxData]).length = s.pos + 1 := by rw [List.length_append, h.pos]; rfl
    have hdone : ¬(2 ≤ s.pos + 1 ∧ s.pos + 1 = (s.lengthAfter i.uartRxData).toNat + 2) := by
      rw [h.done_iff]
      rintro ⟨len, hsecond, hend⟩
      exact absurd (hopen.short len hsecond) (by omega)
    obtain ⟨t, hstep, htrace, hm, hp, -, hus, hreport, hs', hread⟩ :=
      attempt_continue h.boundary hkeep hu hdone (hlen ▸ hopen.room.ne)
    have hbytes : HoldsBytes t (bytes ++ [i.uartRxData]) :=
      ⟨boundaryInvariantIsKept s t h.boundary hstep, hm, hp.trans hlen.symm, h.stored_append hread⟩
    refine ⟨t, hstep, hbytes, hs', ?_, hreport, htrace⟩
    rw [hus, hlen, h.pos]
    exact hrest

/-- The ticks of an attempt that stays unfinished leave its bytes in the buffer, and neither a report nor an event. -/
theorem HoldsBytes.run_unfinished {is js : List Inputs} : ∀ {pre : List Inputs} {s : State} {bytes : List Byte},
    HoldsBytes s bytes → s.script = pre ++ is → attemptGoesOn bytes.length s.lastRxUs (pre ++ js) = true →
    Unfinished (bytes ++ uartBytes pre) →
    ∃ t, run pre.length s = .next t ∧ HoldsBytes t (bytes ++ uartBytes pre) ∧ t.script = is ∧
      attemptGoesOn (bytes ++ uartBytes pre).length t.lastRxUs js = true ∧ t.report = s.report ∧
      (s.trace = [] → t.trace = [])
  | [], s, bytes, h, hscript, hgo, _ => by
    rw [uartBytes_nil, List.append_nil]
    exact ⟨s, rfl, h, hscript, hgo, rfl, id⟩
  | i :: pre, s, bytes, h, hscript, hgo, hopen => by
    have hsplit : bytes ++ uartBytes (i :: pre) = bytes ++ uartBytes [i] ++ uartBytes pre := by
      rw [List.append_assoc, ← uartBytes_append, List.singleton_append]
    rw [hsplit] at hopen ⊢
    obtain ⟨t, hstep, ht, hscript', hgo', hreport, htrace⟩ := h.step_unfinished hscript hgo hopen.of_append
    obtain ⟨u, hrun, hu, hscript'', hgo'', hreport', htrace'⟩ := ht.run_unfinished hscript' hgo' hopen
    exact ⟨u, (run_succ _ hstep).trans hrun, hu, hscript'', hgo'', hreport'.trans hreport, fun _ => htrace' htrace⟩

/-! ## The RC-channels frame, from the wire to the host (30_encoding.md R72, R91) -/

section
variable (ch : Channels) (crc : Byte)

theorem rcframeBytes_length : (rcframeBytes ch crc).length = 26 := by simp [rcframeBytes]

theorem rcframeBytes_addr : (rcframeBytes ch crc)[0]? = some cfg.devAddr := rfl

/-- The length byte counts type, payload and CRC (30_encoding.md R71). -/
theorem rcframeBytes_len : (rcframeBytes ch crc)[1]? = some 24 := rfl

theorem rcframeBytes_type : (rcframeBytes ch crc)[2]? = some cfg.frameType := rfl

theorem rcframeBytes_payload (k : Nat) (hk : k < cfg.payloadLen) :
    (rcframeBytes ch crc)[cfg.payloadOff + k]? = some (pack cfg ch)[k] := by
  have hindex : cfg.payloadOff + k = k + 1 + 1 + 1 := Nat.add_comm 3 k
  rw [rcframeBytes, hindex]
  simp [List.getElem?_append, hk]
end

/-- Up to its last byte an RC-channels frame is unfinished. -/
theorem rcframe_unfinished {bytes : List Byte} {b crc : Byte} {ch : Channels}
    (h : bytes ++ [b] = rcframeBytes ch crc) : Unfinished bytes := by
  have hlen : bytes.length + 1 = 26 := by
    rw [← rcframeBytes_length ch crc, ← h, List.length_append, List.length_singleton]
  refine ⟨show bytes.length < 67 by omega, fun len hsecond => ?_⟩
  have hlong : 1 < bytes.length := by omega
  rw [← List.getElem?_append_left hlong, h, rcframeBytes_len] at hsecond
  cases hsecond
  show bytes.length < 26
  omega

section
variable {s : State} {ch : Channels} {crc : Byte}
  (h : ∀ a b, (rcframeBytes ch crc)[a]? = some b → s.bufRead a = b)
include h

/-- A buffer that begins with an RC-channels frame is one the decoder accepts (42_decoder.md R141). -/
theorem headerAccepted_of_rcframe : headerAccepted s = true :=
  headerAccepted_iff.mpr ⟨h 0 _ (rcframeBytes_addr ch crc), h 2 _ (rcframeBytes_type ch crc)⟩

/-- The decoder unpacks from it the channels that were packed. -/
theorem unpack_payload_of_rcframe : unpack cfg s.payload = ch := by
  have hpayload : s.payload = pack cfg ch := Vector.ext fun k hk => by
    rw [State.payload, Vector.getElem_ofFn]
    exact h _ _ (rcframeBytes_payload ch crc k hk)
  rw [hpayload, unpackOfPackIsTheChannels]
end

theorem uartBytes_append_byte {pre : List Inputs} {i : Inputs} (h : i.uartRxValid = true) :
    uartBytes (pre ++ [i]) = uartBytes pre ++ [i.uartRxData] := by
  rw [uartBytes_append, uartBytes_cons, if_pos h, uartBytes_nil, List.append_nil]

/-- No report is offered to an endpoint that is not ready (40_tick.md R108). -/
theorem hidSend_of_not_hidReady {s t : State} (h : step s = .next t) (hready : s.nextInputs.hidReady = false) :
    t.out.hidSend = false := by
  rcases step_cases h with ⟨-, rfl⟩ | ⟨-, -, rfl⟩ | ⟨-, -, -, -, rfl⟩
  · rfl
  · exact bridge_hidSend s
  · rw [rcResult_hidSend, hready, Bool.and_false]

/-- Settles O58: the bytes but the last leave the attempt unfinished, the last completes it, and UNPACK undoes PACK. -/
theorem rcFrameReachesTheHost : Obligations.RcFrameReachesTheHost := by
  intro s pre rest last ch crc hs hm hp hscript hgo hu hbytes
  rw [uartBytes_append_byte hu] at hbytes
  obtain ⟨u, hrun, hheld, hscript', hgo', -⟩ :=
    (holdsBytes_nil hs hm hp).run_unfinished hscript hgo (rcframe_unfinished hbytes)
  rw [List.nil_append] at hheld hgo'
  have hdone := (hheld.done_iff last.uartRxData).mpr
    ⟨24, hbytes ▸ rcframeBytes_len ch crc, hbytes ▸ rcframeBytes_length ch crc⟩
  obtain ⟨t, hstep, -, hpos, -, hread, -, haccept⟩ :=
    attempt_complete hheld.boundary (hheld.keepsAttempt hscript' hgo') hu hdone
  have hframe : ∀ a b, (rcframeBytes ch crc)[a]? = some b → t.bufRead a = b := hbytes ▸ hheld.stored_append hread
  obtain ⟨hreport, hdrop, hsend⟩ := haccept (headerAccepted_of_rcframe hframe)
  rw [unpack_payload_of_rcframe hframe] at hreport
  refine ⟨t, ?_, hpos, hreport, fun hready => ?_, fun hready => ⟨hdrop hready, ?_⟩⟩
  · rw [run_add _ _ hrun, run_succ _ hstep, run_zero]
  · exact hreport ▸ hsend hready
  · exact hidSend_of_not_hidReady hstep (nextInputs_cons hscript' ▸ hready)

/-! ### As a script line (30_encoding.md R90, R91) -/

theorem scriptInputs_frame_cons (us dus ms : Time) (b : Byte) (bytes : List Byte) :
    scriptInputs [.frame us dus ms (b :: bytes)] =
      lineInputs (urxLine us ms b) :: scriptInputs [.frame (us + dus) dus ms bytes] := by
  rw [scriptInputs_frame, scriptInputs_frame]
  rfl

/-- Every input vector of a `frame` line presents its byte with the endpoint ready. -/
theorem mem_scriptInputs_frame {us dus ms : Time} {bytes : List Byte} {i : Inputs}
    (h : i ∈ scriptInputs [.frame us dus ms bytes]) : i.uartRxValid = true ∧ i.hidReady = true := by
  induction bytes generalizing us with
  | nil => cases h
  | cons b bytes ih =>
    rw [scriptInputs_frame_cons, List.mem_cons] at h
    exact h.elim (fun hi => hi ▸ ⟨rfl, rfl⟩) ih

theorem uartBytes_scriptInputs_frame (us dus ms : Time) (bytes : List Byte) :
    uartBytes (scriptInputs [.frame us dus ms bytes]) = bytes := by
  induction bytes generalizing us with
  | nil => rfl
  | cons b bytes ih =>
    rw [scriptInputs_frame_cons, uartBytes_cons, ih]
    rfl

/-- Bytes at most `P_GAP_US` apart leave no gap; the first needs none before it, or an attempt not yet begun. -/
theorem attemptGoesOn_scriptInputs_frame {dus : Time} (hd : dus.toNat ≤ cfg.gapUs) {n : Nat} {last us ms : Time}
    {bytes : List Byte} (h : n = 0 ∨ elapsed32 us last ≤ cfg.gapUs) :
    attemptGoesOn n last (scriptInputs [.frame us dus ms bytes]) = true := by
  induction bytes generalizing n last us with
  | nil => rfl
  | cons b bytes ih =>
    rw [scriptInputs_frame_cons]
    exact attemptGoesOn_cons.mpr ⟨rfl, rfl, h, ih (.inr ((elapsed32_add us dus).trans_le hd))⟩

/-- Settles O59: the line's input vectors are those of a frame without a gap, the last with the endpoint ready. -/
theorem rcFrameLineReachesTheHost : Obligations.RcFrameLineReachesTheHost := by
  intro s us dus ms ch crc rest hs hm hp hd hscript
  rw [scriptInputs_rcframe] at hscript
  have hgo : attemptGoesOn 0 s.lastRxUs (scriptInputs [.frame us dus ms (rcframeBytes ch crc)]) = true :=
    attemptGoesOn_scriptInputs_frame hd (.inl rfl)
  have hbytes := uartBytes_scriptInputs_frame us dus ms (rcframeBytes ch crc)
  have hlen := (scriptInputs_frame_length us dus ms (rcframeBytes ch crc)).trans (rcframeBytes_length ch crc)
  have hmem : ∀ i ∈ scriptInputs [.frame us dus ms (rcframeBytes ch crc)],
      i.uartRxValid = true ∧ i.hidReady = true := fun i hi => mem_scriptInputs_frame hi
  generalize scriptInputs [.frame us dus ms (rcframeBytes ch crc)] = ins at hscript hgo hbytes hlen hmem
  obtain ⟨pre, last, rfl⟩ := (List.eq_nil_or_concat' ins).resolve_left (by rintro rfl; cases hlen)
  obtain ⟨hu, hready⟩ := hmem last (by simp)
  obtain ⟨t, hrun, hpos, -, hsend, -⟩ :=
    rcFrameReachesTheHost s pre rest last ch crc hs hm hp (by simpa using hscript) hgo hu hbytes
  obtain ⟨htrace, hout, hid, hrep⟩ := hsend hready
  rw [List.length_append, List.length_singleton] at hlen
  exact ⟨t, hlen ▸ hrun, htrace, hout, hid, hrep, hpos⟩

end Sys2Proof.Machine
end

