-- ==== Sys2Proof/Proofs/Tick.lean ====
section
/-! PROOFS. The tick (40_tick.md): the order of its stages (R103), the reset tick (R101), what a tick leaves at the output
ports (R104), and the duties of the block at its ports (R106 to R108). -/
namespace Sys2Proof.Machine

/-! ## The order of the stages (40_tick.md R101 to R103) -/

/-- Settles O28. -/
theorem resetTickDoesNothingElse : Obligations.ResetTickDoesNothingElse := by
  intro s hr
  obtain ⟨hmode, hlast, hbuf, hpos, hlen, htime, hreport, hready, hout, htrace, hfired, -, -, -⟩ :=
    wasReset_fields s.beginTick
  exact ⟨_, step_reset hr, hfired, htrace, hout, hmode, hlast, fun a => congrArg (Memory.read · a) hbuf, hpos, hlen,
    htime, hreport, hready⟩

/-- A reset tick is stage R alone (40_tick.md R101). -/
theorem step_eq_runStage_rst {s : State} (hr : s.nextInputs.rst = true) : step s = runStage .rst s.beginTick := by
  have hfires : .reset ∈ fire .rst s.beginTick := by
    rw [fire_rst, State.beginTick_inp, if_pos hr]
    exact List.mem_singleton.mpr rfl
  exact if_pos hfires

/-- Every other tick starts with the arbiter (40_tick.md R103). -/
theorem step_eq_arbitrate {s : State} (hr : s.nextInputs.rst = false) : step s = arbitrate s.beginTick := by
  have hidle : .reset ∉ fire .rst s.beginTick := by simp [fire_rst, hr]
  exact if_neg hidle

/-- The bridge path follows the arbiter's stage where ARB_IDLE_RC did not fire (40_tick.md R102). -/
theorem arbitrate_of_onBridge {b : State} (hb : onBridge b) :
    arbitrate b = andThen (runStage .arb b) (runStage .br) := by
  have hn : .arbIdleRc ∉ fire .arb b := by
    rw [mem_fire_arb]
    rcases hb with h | h <;> simp [h]
  simp only [arbitrate, if_neg hn]
  rfl

/-- The RC path follows the arbiter's stage where ARB_IDLE_RC fired (40_tick.md R102). -/
theorem arbitrate_of_rc {b : State} (hm : b.mode = .idle) (hv : b.inp.vserRxValid = false) :
    arbitrate b = andThen (runStage .arb b) rcPath := by
  have hfires : .arbIdleRc ∈ fire .arb b := mem_fire_arb.mpr (.inr (.inr ⟨hm, hv, rfl⟩))
  simp only [arbitrate, if_pos hfires]

/-- On the RC path the arbiter's stage writes nothing (44_arbiter.md R181). -/
theorem runStage_arb_of_rc {b : State} (hm : b.mode = .idle) (hv : b.inp.vserRxValid = false) :
    runStage .arb b = .next (b.noteOp .arbIdleRc) := by
  rw [runStage, fire_arb, if_neg (by simp [flagMode_idle hm]), if_neg (by simp [hv])]
  rfl

/-- Stage E follows stage D exactly where a byte is presented (41_receiver.md R122). -/
theorem runReceiver_eq_stages (u : State) : runReceiver u = andThen (runStage .rxb u) fun v =>
    if u.inp.uartRxValid = true then runStage .rxp v else .next v := by
  have hfires : .rxAppend ∈ fire .rxb u ↔ u.inp.uartRxValid = true := by simp [mem_fire_rxb]
  simp only [runReceiver, hfires]

/-- RX_COMPLETE runs stage F, then resets the write position (41_receiver.md R124). -/
theorem exec_rxComplete (full : Bool) (s : State) : exec (.rxComplete full) s =
    andThen (runStage .hdr (s.event .rxComplete)) fun t => .next (t.setPos 0) := by
  rw [← runHeader_eq_runStage]
  rfl

/-- Settles O26: the path is chosen by what the reset stage and the arbiter fire, and on the RC path the byte the
post-append stage waits for is the one sampled at the start. -/
theorem stepRunsTheStagesInOrder : Obligations.StepRunsTheStagesInOrder := by
  intro s
  refine ⟨rfl, rfl, rfl, step_eq_runStage_rst, fun hr hb => ?_, fun hr hm hv => ?_, fun full => exec_rxComplete full s⟩
  · rw [step_eq_arbitrate hr, arbitrate_of_onBridge hb]
  · have hbyte : (gapChecked (rcStart s)).inp.uartRxValid = s.nextInputs.uartRxValid := by simp
    rw [step_eq_arbitrate hr, arbitrate_of_rc (b := s.beginTick) hm hv, runStage_arb_of_rc (b := s.beginTick) hm hv,
      andThen_next, andThen_next, rcPath, runStage_rxg, andThen_next, andThen_next, runReceiver_eq_stages, hbyte]

/-! ## The output ports after a tick (10_state.md R33, 40_tick.md R104) -/

theorem received_out (s : State) : (received s).out =
    { s.out with uartRxPop := s.inp.uartRxValid || s.out.uartRxPop } := by
  unfold received
  cases s.inp.uartRxValid <;> simp

/-- The outputs of an RC-path tick: the UART pop of a byte taken, and the report ports where a report is sent. -/
theorem rcResult_out (s : State) : (rcResult s.beginTick).out =
    if (received (gapChecked (rcStart s))).ready = true ∧ s.nextInputs.hidReady = true then
      { Outputs.defaults with
        uartRxPop := s.nextInputs.uartRxValid, hidSend := true, hidReportId := cfg.reportId
        hidReport := reportBytes cfg (received (gapChecked (rcStart s))).report }
    else { Outputs.defaults with uartRxPop := s.nextInputs.uartRxValid } := by
  have hout : (received (gapChecked (rcStart s))).out =
      { Outputs.defaults with uartRxPop := s.nextInputs.uartRxValid } := by
    rw [received_out]
    simp [Outputs.defaults]
  have hinp : (received (gapChecked (rcStart s))).inp = s.nextInputs := by simp
  rw [rcResult, dispatched_out, hout, hinp]

/-- The strobes of an RC-path tick: none of the relay's, and the UART pop exactly where a byte is presented. -/
theorem rcResult_strobes (s : State) : (rcResult s.beginTick).out.uartRxPop = s.nextInputs.uartRxValid ∧
    (rcResult s.beginTick).out.vserRxPop = false ∧ (rcResult s.beginTick).out.uartTxValid = false ∧
    (rcResult s.beginTick).out.vserTxValid = false := by
  rw [rcResult_out]
  split <;> exact ⟨rfl, rfl, rfl, rfl⟩

theorem rcResult_hidSend_iff {s : State} : (rcResult s.beginTick).out.hidSend = true ↔
    (received (gapChecked (rcStart s))).ready = true ∧ s.nextInputs.hidReady = true := by
  rw [rcResult_hidSend, Bool.and_eq_true]

/-- The outputs of a bridge-path tick: the ports of each byte moved (44_arbiter.md R184, R185). -/
theorem bridge_out (s : State) : (relayed (arbitrated s.beginTick)).out =
    { Outputs.defaults with
      vserRxPop := flagU2sGo s.beginTick, uartTxValid := flagU2sGo s.beginTick
      uartTxData := if flagU2sGo s.beginTick then s.nextInputs.vserRxData else 0x00
      uartRxPop := flagS2uGo s.beginTick, vserTxValid := flagS2uGo s.beginTick
      vserTxData := if flagS2uGo s.beginTick then s.nextInputs.uartRxData else 0x00 } := by
  rw [relayed_out]
  simp [flagU2sGo, flagS2uGo, Outputs.defaults]

/-- The strobes of a bridge-path tick: each relay operation that fires sets its pop and its offer. -/
theorem bridge_strobes (s : State) :
    (relayed (arbitrated s.beginTick)).out.uartRxPop = flagS2uGo s.beginTick ∧
    (relayed (arbitrated s.beginTick)).out.vserRxPop = flagU2sGo s.beginTick ∧
    (relayed (arbitrated s.beginTick)).out.uartTxValid = flagU2sGo s.beginTick ∧
    (relayed (arbitrated s.beginTick)).out.vserTxValid = flagS2uGo s.beginTick := by
  rw [bridge_out]
  exact ⟨rfl, rfl, rfl, rfl⟩

/-! ## Outputs that no operation drives (10_state.md R33, 40_tick.md R104) -/

/-- A bridge-path tick performs BR_U2S exactly when U2S_GO is set (44_arbiter.md R184). -/
theorem exists_brU2s_mem_bridge_fired {s : State} (hb : onBridge s.beginTick) :
    (∃ g b, .brU2s g b ∈ (relayed (arbitrated s.beginTick)).fired) ↔ flagU2sGo s.beginTick = true := by
  have hflag : flagU2sGo (arbitrated s.beginTick) = flagU2sGo s.beginTick := by simp [flagU2sGo]
  simp [mem_bridge_fired hb, mem_fire_arb, mem_fire_br, hflag]

/-- A bridge-path tick performs BR_S2U exactly when S2U_GO is set (44_arbiter.md R185). -/
theorem exists_brS2u_mem_bridge_fired {s : State} (hb : onBridge s.beginTick) :
    (∃ g b, .brS2u g b ∈ (relayed (arbitrated s.beginTick)).fired) ↔ flagS2uGo s.beginTick = true := by
  have hflag : flagS2uGo (arbitrated s.beginTick) = flagS2uGo s.beginTick := by simp [flagS2uGo]
  simp [mem_bridge_fired hb, mem_fire_arb, mem_fire_br, hflag]

/-- An RC-path tick performs DISP_SEND exactly when it strobes `hid_send` (43_dispatcher.md R171). -/
theorem dispSend_mem_rcResult_fired {s : State} :
    .dispSend ∈ (rcResult s.beginTick).fired ↔ (rcResult s.beginTick).out.hidSend = true := by
  rw [rcResult_hidSend_iff]
  simp [mem_rcResult_fired, mem_fire_rxp, mem_fire_hdr, mem_fire_dsp]

/-- A data output is its default where its strobe is 0: only the operation that sets the strobe writes the data. -/
theorem idleOutputs_of_step {s t : State} (h : step s = .next t) : IdleOutputs t.out := by
  rcases step_cases h with ⟨-, rfl⟩ | ⟨-, -, rfl⟩ | ⟨-, -, -, -, rfl⟩
  · exact ⟨fun _ => rfl, fun _ => rfl, fun _ => ⟨rfl, rfl⟩⟩
  · rw [bridge_out]
    exact ⟨fun hu => if_neg (Bool.eq_false_iff.mp hu), fun hs => if_neg (Bool.eq_false_iff.mp hs), fun _ => ⟨rfl, rfl⟩⟩
  · rw [rcResult_out]
    split
    · exact ⟨fun _ => rfl, fun _ => rfl, fun hsend => absurd hsend Bool.true_eq_false_eq_False⟩
    · exact ⟨fun _ => rfl, fun _ => rfl, fun _ => ⟨rfl, rfl⟩⟩

/-- Where data follow their strobes, the strobes alone decide that what nothing drives is at its default. -/
theorem UndrivenDefault.of_strobes {t : State} (hidle : IdleOutputs t.out)
    (hrx : t.out.uartRxPop = true → .rxAppend ∈ t.fired ∨ ∃ g b, .brS2u g b ∈ t.fired)
    (hu2s : t.out.vserRxPop = true ∨ t.out.uartTxValid = true → ∃ g b, .brU2s g b ∈ t.fired)
    (hs2u : t.out.vserTxValid = true → ∃ g b, .brS2u g b ∈ t.fired)
    (hsend : t.out.hidSend = true → .dispSend ∈ t.fired) : UndrivenDefault t where
  uart_rx happend hmove :=
    Bool.eq_false_iff.mpr fun hpop => (hrx hpop).elim happend fun ⟨g, b, hm⟩ => hmove g b hm
  vser_rx hmove := Bool.eq_false_iff.mpr fun hpop => (hu2s (.inl hpop)).elim fun g ⟨b, hm⟩ => hmove g b hm
  uart_tx hmove :=
    have hstrobe : t.out.uartTxValid = false :=
      Bool.eq_false_iff.mpr fun hoffer => (hu2s (.inr hoffer)).elim fun g ⟨b, hm⟩ => hmove g b hm
    ⟨hstrobe, hidle.uart_tx hstrobe⟩
  vser_tx hmove :=
    have hstrobe : t.out.vserTxValid = false :=
      Bool.eq_false_iff.mpr fun hoffer => (hs2u hoffer).elim fun g ⟨b, hm⟩ => hmove g b hm
    ⟨hstrobe, hidle.vser_tx hstrobe⟩
  hid hnone :=
    have hstrobe : t.out.hidSend = false := Bool.eq_false_iff.mpr (mt hsend hnone)
    ⟨hstrobe, hidle.hid hstrobe⟩

/-- Settles O39: each strobe a path sets comes with the operation that drives it, and the data follow the strobes. -/
theorem undrivenOutputsAreDefault : Obligations.UndrivenOutputsAreDefault := by
  intro s t h
  have hidle := idleOutputs_of_step h
  refine ⟨?_, hidle⟩
  rcases step_cases h with ⟨-, rfl⟩ | ⟨-, hb, rfl⟩ | ⟨-, -, -, -, rfl⟩
  · exact ⟨fun _ _ => rfl, fun _ => rfl, fun _ => ⟨rfl, rfl⟩, fun _ => ⟨rfl, rfl⟩, fun _ => ⟨rfl, rfl, rfl⟩⟩
  · obtain ⟨hrx, hvrx, hutx, hvtx⟩ := bridge_strobes s
    have hu2s := (exists_brU2s_mem_bridge_fired hb).mpr
    have hs2u := (exists_brS2u_mem_bridge_fired hb).mpr
    exact .of_strobes hidle (fun h => .inr (hs2u (hrx ▸ h))) (fun h => hu2s (h.elim (hvrx ▸ ·) (hutx ▸ ·)))
      (fun h => hs2u (hvtx ▸ h)) (fun h => absurd h (by simp [bridge_hidSend]))
  · obtain ⟨hrx, hvrx, hutx, hvtx⟩ := rcResult_strobes s
    exact .of_strobes hidle (fun h => .inl (rxAppend_mem_rcResult_fired.mpr (hrx ▸ h)))
      (fun h => absurd h (by simp [hvrx, hutx])) (fun h => absurd h (by simp [hvtx])) dispSend_mem_rcResult_fired.mpr

/-! ## The duties at the ports (40_tick.md R106 to R108) -/

/-- On the bridge path a pop and an offer share one GO bit: a byte is there, and its sink is ready. -/
theorem bridge_handshakesKept (s : State) : HandshakesKept (relayed (arbitrated s.beginTick)) := by
  obtain ⟨hrx, hvrx, hutx, hvtx⟩ := bridge_strobes s
  have hinp : (relayed (arbitrated s.beginTick)).inp = s.nextInputs := by simp
  constructor
  case uart_pop => rw [hrx, hinp]; exact fun h => (flagS2uGo_iff.mp h).1
  case vser_pop => rw [hvrx, hinp]; exact fun h => (flagU2sGo_iff.mp h).1
  case uart_offer => rw [hutx, hinp, bridge_out]; exact fun h => ⟨(flagU2sGo_iff.mp h).2, if_pos h⟩
  case vser_offer => rw [hvtx, hinp, bridge_out]; exact fun h => ⟨(flagS2uGo_iff.mp h).2, if_pos h⟩
  case hid_offer => rw [bridge_hidSend]; exact nofun

/-- On the RC path the UART pop is the presented byte's, and a report goes to a ready endpoint only. -/
theorem rcResult_handshakesKept (s : State) : HandshakesKept (rcResult s.beginTick) := by
  obtain ⟨hrx, hvrx, hutx, hvtx⟩ := rcResult_strobes s
  constructor
  case uart_pop => rw [hrx, rcResult_inp]; exact id
  case vser_pop => rw [hvrx]; exact nofun
  case uart_offer => rw [hutx]; exact nofun
  case vser_offer => rw [hvtx]; exact nofun
  case hid_offer =>
    intro hsend
    have hpending := rcResult_hidSend_iff.mp hsend
    rw [rcResult_hidReport hsend, rcResult_out, if_pos hpending, rcResult_inp]
    exact ⟨hpending.2, rfl, rfl⟩

/-- Settles O38. -/
theorem handshakesAreKept : Obligations.HandshakesAreKept := by
  intro s t h
  rcases step_cases h with ⟨-, rfl⟩ | ⟨-, -, rfl⟩ | ⟨-, -, -, -, rfl⟩
  · have hout : (wasReset s.beginTick).out = Outputs.defaults := rfl
    constructor <;> simp [hout, Outputs.defaults]
  · exact bridge_handshakesKept s
  · exact rcResult_handshakesKept s

end Sys2Proof.Machine
end

