-- ==== Sys2Proof/Proofs/Receiver.lean ====
section
/-! PROOFS. The Frame Receiver (41_receiver.md): its operations (R120 to R126), a frame that completes (R127), a gap
(R128) and a frame that is too long (R129). -/
namespace Sys2Proof.Machine

/-! ## Stage C (41_receiver.md R120) -/

theorem rxGapReset_mem_fire {s : State} : .rxGapReset ∈ fire .rxg s ↔ flagGap cfg s = true := by
  simp [mem_fire_rxg]

/-- Settles O9: the selection is GAP, and the effect is the written-out record. -/
theorem rxGapResetDiscardsTheAttempt : Obligations.RxGapResetDiscardsTheAttempt := fun _ =>
  ⟨rxGapReset_mem_fire.trans flagGap_iff, rfl⟩

/-! ## Stage D (41_receiver.md R121, R122) -/

theorem rxNop_mem_fire {s : State} : .rxNop ∈ fire .rxb s ↔ s.inp.uartRxValid = false := by
  simp [mem_fire_rxb]

theorem rxAppend_mem_fire {s : State} : .rxAppend ∈ fire .rxb s ↔ s.inp.uartRxValid = true := by
  simp [mem_fire_rxb]

/-- Settles O10: without a byte no index is written, so the stages cannot stop either. -/
theorem rxNopDoesNothing : Obligations.RxNopDoesNothing := by
  refine fun s => ⟨rxNop_mem_fire, rfl, fun hfires => ?_⟩
  have hu : ¬s.inp.uartRxValid = true := by simpa using rxNop_mem_fire.mp hfires
  rw [runReceiver_eq, if_neg fun h => hu h.1, received, if_neg hu]

/-- An index below `P_BUF_CAP` is written (20_memory.md R51). -/
theorem State.bufWrite_of_room {s : State} {i : Nat} (h : i < cfg.bufCap) (b : Byte) :
    s.bufWrite i b = .next (s.setBuf (Memory.write s.buf i b)) := if_pos h

/-- RX_APPEND with room, field by field (41_receiver.md R122). -/
theorem exec_rxAppend_of_room {s : State} (h : s.pos < cfg.bufCap) : exec .rxAppend s = .next { s with
    out := { s.out with uartRxPop := true }
    buf := Memory.write s.buf s.pos s.inp.uartRxData, pos := s.pos + 1, lastRxUs := s.inp.nowUs
    declLen := if s.pos = 1 then s.inp.uartRxData else s.declLen } := by
  have hwrite := State.bufWrite_of_room (s := s.setOut { s.out with uartRxPop := true }) h s.inp.uartRxData
  show execRxAppend s = _
  rw [execRxAppend, hwrite, andThen_next]
  exact congrArg _ (by apply State.ext_fields <;> simp)

/-- Where a byte is presented, stage D is RX_APPEND and stage E follows it (40_tick.md R103). -/
theorem runReceiver_of_byte {s : State} (hu : s.inp.uartRxValid = true) :
    runReceiver s = andThen (exec .rxAppend (s.noteOp .rxAppend)) (runStage .rxp) := by
  have hstage : runStage .rxb s = exec .rxAppend (s.noteOp .rxAppend) := by
    rw [runStage, fire_rxb, if_pos hu, runOps_one]
  simp only [runReceiver_eq_stages, hstage, if_pos hu]

/-- Settles O11: selection, the written-out next state, and the order of stages D and E. -/
theorem rxAppendStoresOneByte : Obligations.RxAppendStoresOneByte := fun _ =>
  ⟨rxAppend_mem_fire,
    fun hroom => ⟨_, exec_rxAppend_of_room hroom, rfl, fun hw => Memory.read_write hw _ _⟩,
    fun hfires => runReceiver_of_byte (rxAppend_mem_fire.mp hfires)⟩

/-! ## Stage E (41_receiver.md R124 to R126) -/

theorem exists_rxComplete_mem_fire {s : State} : (∃ f, .rxComplete f ∈ fire .rxp s) ↔ flagDone s = true := by
  simp [mem_fire_rxp]

theorem rxOverflow_mem_fire {s : State} :
    .rxOverflow ∈ fire .rxp s ↔ ¬flagDone s = true ∧ flagFull cfg s = true := by
  simp [mem_fire_rxp]

theorem rxContinue_mem_fire {s : State} :
    .rxContinue ∈ fire .rxp s ↔ ¬flagDone s = true ∧ ¬flagFull cfg s = true := by
  simp [mem_fire_rxp]

/-- Settles O13: the decoder's outcome, by the header, and the reset of the write position after it. -/
theorem rxCompleteDecodesAndResets : Obligations.RxCompleteDecodesAndResets := by
  refine fun s full => ⟨exists_rxComplete_mem_fire.trans flagDone_iff, ?_⟩
  rw [exec_rxComplete, ← runHeader_eq_runStage, runHeader_eq, andThen_next, decoded, headerAccepted_event]
  by_cases ha : headerAccepted s = true
  · have hpayload : (s.event .rxComplete).payload = s.payload := payload_congr rfl
    rw [if_pos ha, if_pos (headerAccepted_iff.mp ha), hpayload]
    exact congrArg _ (by apply State.ext_fields <;> simp)
  · rw [if_neg ha, if_neg (mt headerAccepted_iff.mpr ha)]
    exact congrArg _ (by apply State.ext_fields <;> simp)

/-- Settles O14: the selection is FULL without DONE. -/
theorem rxOverflowDiscardsTheFrame : Obligations.RxOverflowDiscardsTheFrame := fun _ =>
  ⟨rxOverflow_mem_fire.trans (and_congr (not_congr flagDone_iff) flagFull_iff), rfl⟩

/-- One byte neither completes a frame nor fills the buffer (41_receiver.md R126). -/
theorem fire_rxp_of_pos_one {s : State} (h : s.pos = 1) : fire .rxp s = [.rxContinue] := by
  have hdone : ¬flagDone s = true := fun hd => by
    have := (flagDone_iff.mp hd).1
    omega
  have hfull : ¬flagFull cfg s = true := fun hf => absurd (h.symm.trans (flagFull_iff.mp hf)) (by decide)
  rw [fire_rxp, if_neg hdone, if_neg hfull]

/-- Settles O15: the selection is neither FULL nor DONE. -/
theorem rxContinueDoesNothing : Obligations.RxContinueDoesNothing := fun _ =>
  ⟨rxContinue_mem_fire.trans (and_congr (not_congr flagDone_iff) (not_congr flagFull_iff)), fire_rxp_of_pos_one, rfl⟩

/-! ## A frame attempt up to its last byte (41_receiver.md R127, R129) -/

/-- An attempt is unfinished before its last byte if, with that byte, it is neither longer than the buffer nor longer
than its second byte declares. -/
theorem unfinished_of_append_byte {bytes : List Byte} {b len : Byte} (hsecond : (bytes ++ [b])[1]? = some len)
    (hroom : (bytes ++ [b]).length ≤ cfg.bufCap) (hlen : (bytes ++ [b]).length ≤ len.toNat + 2) :
    Unfinished bytes := by
  rw [List.length_append, List.length_singleton] at hroom hlen
  refine ⟨hroom, fun len' hsecond' => ?_⟩
  have hlong := (List.getElem?_eq_some_iff.mp hsecond').1
  rw [List.getElem?_append_left hlong, hsecond'] at hsecond
  cases hsecond
  exact hlen

/-- A run goes on by one step. -/
theorem run_succ_of_run {k : Nat} {s u t : State} (hrun : run k s = .next u) (hstep : step u = .next t) :
    run (k + 1) s = .next t := by
  rw [run_add _ _ hrun, run_succ _ hstep, run_zero]

/-- A tick inside an unfinished attempt shows no event, whatever the trace was before the attempt. -/
theorem HoldsBytes.run_take_unfinished {s : State} {pre is js : List Inputs} (h : HoldsBytes s [])
    (hscript : s.script = pre ++ is) (hgo : attemptGoesOn 0 s.lastRxUs (pre ++ js) = true)
    (hopen : Unfinished (uartBytes pre)) {k : Nat} (hk : 1 ≤ k) (hle : k ≤ pre.length) :
    ∃ u, run k s = .next u ∧ HoldsBytes u (uartBytes (pre.take k)) ∧ u.trace = [] := by
  obtain ⟨k, rfl⟩ := Nat.exists_eq_add_of_le' hk
  have htake : uartBytes (pre.take (k + 1)) = uartBytes (pre.take k) ++ uartBytes [pre[k]] := by
    rw [List.take_succ_eq_append_getElem hle, uartBytes_append]
  have hsplit : pre = pre.take k ++ pre[k] :: pre.drop (k + 1) := by
    rw [List.getElem_cons_drop, List.take_append_drop]
  have hopen' : Unfinished (uartBytes (pre.take (k + 1))) := by
    refine Unfinished.of_append (more := uartBytes (pre.drop (k + 1))) ?_
    rwa [← uartBytes_append, List.take_append_drop]
  rw [htake] at hopen' ⊢
  rw [hsplit, List.append_assoc] at hscript hgo
  obtain ⟨t, hrun, ht, hscript', hgo', -⟩ := h.run_unfinished hscript hgo hopen'.of_append
  obtain ⟨u, hstep, hu, -, -, -, htrace⟩ := ht.step_unfinished hscript' hgo' hopen'
  rw [List.length_take_of_le (Nat.le_of_succ_le hle)] at hrun
  exact ⟨u, run_succ_of_run hrun hstep, hu, htrace⟩

/-- The ticks before an attempt's last one reach a boundary at which that tick goes on with the attempt. -/
theorem HoldsBytes.run_to_last {s : State} {pre rest : List Inputs} {last : Inputs} (h : HoldsBytes s [])
    (hscript : s.script = pre ++ last :: rest) (hgo : attemptGoesOn 0 s.lastRxUs (pre ++ [last]) = true)
    (hopen : Unfinished (uartBytes pre)) :
    ∃ u, run pre.length s = .next u ∧ HoldsBytes u (uartBytes pre) ∧ KeepsAttempt u last rest ∧
      u.report = s.report := by
  obtain ⟨u, hrun, hu, hscript', hgo', hreport, -⟩ := h.run_unfinished hscript hgo hopen
  exact ⟨u, hrun, hu, hu.keepsAttempt hscript' hgo', hreport⟩

/-- Settles O43: up to its last byte the attempt is unfinished, and the last byte brings its length to what the second
one declares. -/
theorem frameCompletesOnItsLastByte : Obligations.FrameCompletesOnItsLastByte := by
  intro s pre rest last len hs hm hp hscript hgo hu hsecond hlen hfits
  rw [uartBytes_append_byte hu] at hsecond hlen ⊢
  have hstart := holdsBytes_nil hs hm hp
  have hopen := unfinished_of_append_byte hsecond (hlen.trans_le hfits) hlen.le
  refine ⟨fun k hk hle => ?_, ?_⟩
  · obtain ⟨u, hrun, hheld, htrace⟩ := hstart.run_take_unfinished hscript hgo hopen hk hle
    exact ⟨u, hrun, htrace, hheld.mode, hheld.pos⟩
  · obtain ⟨u, hrun, hheld, hkeep, -⟩ := hstart.run_to_last hscript hgo hopen
    obtain ⟨t, hstep, -, hpos, -, hread, hignore, haccept⟩ :=
      attempt_complete hheld.boundary hkeep hu ((hheld.done_iff _).mpr ⟨len, hsecond, hlen⟩)
    refine ⟨t, run_succ_of_run hrun hstep, hpos, ?_, hheld.stored_append hread⟩
    cases ha : headerAccepted t with
    | false => simp [(hignore ha).1]
    | true =>
      obtain ⟨-, hdrop, hsend⟩ := haccept ha
      cases hready : last.hidReady with
      | false => simp [hdrop hready]
      | true => simp [(hsend hready).1]

/-- Settles O44: the byte that fills the buffer still leaves the attempt shorter than its second byte declares. -/
theorem longFrameOverflows : Obligations.LongFrameOverflows := by
  intro s pre rest last len hs hm hp hscript hgo hu hsecond hlen hlong
  rw [uartBytes_append_byte hu] at hsecond hlen
  have hstart := holdsBytes_nil hs hm hp
  have hopen := unfinished_of_append_byte hsecond hlen.le (hlen.trans_lt hlong).le
  refine ⟨fun k hk hle => ?_, ?_⟩
  · obtain ⟨u, hrun, -, htrace⟩ := hstart.run_take_unfinished hscript hgo hopen hk hle
    exact ⟨u, hrun, htrace⟩
  · obtain ⟨u, hrun, hheld, hkeep, hreport⟩ := hstart.run_to_last hscript hgo hopen
    have hshort : ¬(2 ≤ u.pos + 1 ∧ u.pos + 1 = (u.lengthAfter last.uartRxData).toNat + 2) := by
      rw [hheld.done_iff]
      rintro ⟨len', hsecond', hend⟩
      rw [hsecond] at hsecond'
      cases hsecond'
      omega
    have hfull : u.pos + 1 = cfg.bufCap := by rw [hheld.pos, ← hlen, List.length_append, List.length_singleton]
    obtain ⟨t, hstep, htrace, -, hpos, hkept, -⟩ := attempt_overflow hheld.boundary hkeep hu hshort hfull
    exact ⟨t, run_succ_of_run hrun hstep, hpos, htrace, hkept.trans hreport⟩

/-! ## A gap (41_receiver.md R128) -/

section
variable {b : State} (hg : flagGap cfg b = true)
include hg

/-- A byte after a gap is the first of its attempt: it neither completes a frame nor fills the buffer. -/
theorem gap_not_done_not_full :
    flagDone (appended (gapChecked b)) = false ∧ flagFull cfg (appended (gapChecked b)) = false := by
  constructor
  · by_contra hd
    simp [done_not_gap (by simpa using hd)] at hg
  · by_contra hf
    simp [full_not_gap (by simpa using hf)] at hg

theorem gapChecked_pos_of_gap : (gapChecked b).pos = 0 := by rw [gapChecked_pos, if_pos hg]
end

/-- In a tick with a gap stages D and E leave the report and `ready`. -/
theorem received_of_gap {s : State} (hg : flagGap cfg (rcStart s) = true) :
    (received (gapChecked (rcStart s))).report = s.report ∧ (received (gapChecked (rcStart s))).ready = s.ready := by
  have hdone := (gap_not_done_not_full hg).1
  simpa using received_report_ready (s := gapChecked (rcStart s)) (by simp [hdone])

/-- Settles O45: stage C has set `pos` to 0, so a byte after the gap is the first of its attempt. -/
theorem gapDiscardsBeforeTheByte : Obligations.GapDiscardsBeforeTheByte := by
  intro s hw hready hm hp hr hv hgap
  have hg : flagGap cfg (rcStart s) = true := flagGap_iff.mpr ⟨hp, hgap⟩
  have hzero := gapChecked_pos_of_gap hg
  obtain ⟨hdone, hfull⟩ := gap_not_done_not_full hg
  obtain ⟨hreport, hpending⟩ := received_of_gap hg
  refine ⟨_, step_rc hr hm hv fun _ => hzero ▸ Nat.zero_lt_succ 66, ?_, (dispatched_report _).trans hreport, ?_,
    fun hu => ?_, fun hu => ?_⟩
  · simp [rcResult_trace hready, hdone, hfull, hg]
  · rw [rcResult_hidSend, hpending, hready, Bool.false_and]
  · rw [rcResult_no_byte hu]
    exact ⟨by simp [hzero], by simp⟩
  · rw [rcResult_byte hu]
    have hw' : Memory.wf (gapChecked (rcStart s)).buf = true := by simpa using hw
    refine ⟨by simp [postAppended_pos, hdone, hfull, hzero], by simp, fun a => ?_⟩
    rw [dispatched_bufRead, postAppended_bufRead, appended_bufRead _ hw', hzero]
    simp

end Sys2Proof.Machine
end

