-- ==== Sys2Proof/Proofs/Decoder.lean ====
section
/-! PROOFS. The Frame Decoder (42_decoder.md): its two operations (R141, R142), the axis map (R144), the switch map
(R145), and what a decode depends on (R148). -/
namespace Sys2Proof.Machine

/-! ## The operations of stage F (42_decoder.md R141, R142) -/

/-- DEC_ACCEPT_RC writes the report and `ready` (42_decoder.md R141). -/
theorem exec_decAcceptRc (s : State) : exec .decAcceptRc s = .next { s with
    report := reportOf cfg (unpack cfg s.payload), ready := true, trace := s.trace ++ [.decAcceptRc] } := rfl

theorem report_of_exec_decAcceptRc {s t : State} (h : exec .decAcceptRc s = .next t) :
    t.report = reportOf cfg (unpack cfg s.payload) := by
  rw [exec_decAcceptRc] at h
  cases h
  rfl

theorem decAcceptRc_mem_fire {s : State} : .decAcceptRc ∈ fire .hdr s ↔ headerAccepted s = true := by
  simp [mem_fire_hdr]

theorem exists_decIgnore_mem_fire {s : State} : (∃ a t, .decIgnore a t ∈ fire .hdr s) ↔
    ¬headerAccepted s = true := by
  simp [mem_fire_hdr]

/-- The header is the accepted one exactly when HDR_SEL is `0x16C8` (30_encoding.md R85). -/
theorem headerAccepted_iff_hdrWord {s : State} :
    headerAccepted s = true ↔ hdrWord (s.bufRead 0) (s.bufRead 2) = 0x16C8 :=
  headerAccepted_iff.trans hdrWord_inj.symm

/-- Byte `k` of the payload is byte `3 + k` of the buffer (30_encoding.md R73). -/
theorem payload_getElem (s : State) (k : Nat) (h : k < cfg.payloadLen) : s.payload[k] = s.bufRead (3 + k) :=
  Vector.getElem_ofFn ..

/-- Settles O16: the report's fields are those of `reportOf`. -/
theorem decAcceptWritesTheReport : Obligations.DecAcceptWritesTheReport := fun s =>
  ⟨decAcceptRc_mem_fire.trans headerAccepted_iff, exec_decAcceptRc s, fun k => payload_getElem s k k.isLt⟩

/-- Settles O17: the default row is selected where DEC_ACCEPT_RC is not. -/
theorem decIgnoreLeavesTheReport : Obligations.DecIgnoreLeavesTheReport := fun _ _ _ =>
  ⟨exists_decIgnore_mem_fire.trans (not_congr headerAccepted_iff_hdrWord), rfl⟩

/-! ## The axis map (42_decoder.md R144) -/

/-- `m + 32767` is the integer nearest to `(r − 172) · 65534 / 1639`. There is no tie: it would make the odd
`2N + D` a multiple of the even `2D`. -/
theorem axisValue_nearest (r : Nat) :
    -1639 < 2 * (1639 * (axisValue cfg r + 32767) - ((r : Int) - 172) * 65534) ∧
      2 * (1639 * (axisValue cfg r + 32767) - ((r : Int) - 172) * 65534) < 1639 := by
  have hodd : (131068 * ((r : Int) - 172) + 1639) % 3278 ≠ 0 := by omega
  rw [axisValue_eq]
  omega

/-- A step of `r` moves the exact value by almost 40, and the rounded values are off by less than one half. -/
theorem axisValue_strictMono : StrictMono (axisValue cfg) := by
  intro r r' h
  have hlow := (axisValue_nearest r).2
  have hhigh := (axisValue_nearest r').1
  omega

/-- The mapped value fits 16 bits exactly on the input range. -/
theorem axisValue_fits_iff (r : Nat) :
    (-32768 ≤ axisValue cfg r ∧ axisValue cfg r ≤ 32767) ↔ 172 ≤ r ∧ r ≤ 1811 := by
  have hnear := axisValue_nearest r
  omega

/-- A stored word reads as the mapped value where that fits 16 bits. -/
theorem axisMap_toInt {r : Channel} (hlow : 172 ≤ r.toNat) (hhigh : r.toNat ≤ 1811) :
    (axisMap cfg r).toInt = axisValue cfg r.toNat := by
  obtain ⟨hmin, hmax⟩ := (axisValue_fits_iff r.toNat).mpr ⟨hlow, hhigh⟩
  rw [axisMap_eq, BitVec.toInt_ofInt]
  exact Int.bmod_eq_of_le hmin (Int.lt_add_one_of_le hmax)

/-- The stored word is the mapped value modulo `2^16`. -/
theorem axisMap_toNat (r : Channel) : ((axisMap cfg r).toNat : Int) = axisValue cfg r.toNat % 2 ^ 16 := by
  rw [axisMap_eq, BitVec.toNat_ofInt]
  exact Int.toNat_of_nonneg (Int.emod_nonneg _ (by decide))

/-- Settles O51: being the nearest integer gives the rise and the range. -/
theorem axisMapIsTheRoundedLaw : Obligations.AxisMapIsTheRoundedLaw := fun r _ =>
  ⟨axisValue_nearest r.toNat, fun h => axisValue_strictMono h, axisValue_fits_iff r.toNat, axisMap_toInt,
    axisMap_toNat r⟩

/-- Settles O52. -/
theorem axisMapEndPoints : Obligations.AxisMapEndPoints := ⟨rfl, rfl, rfl, rfl⟩

/-! ## The switch map (42_decoder.md R145) -/

/-- A sum of weighted bits is the number with those bits. -/
theorem sum_ofFn_toNat_mul_two_pow {n : Nat} (f : Fin n → Bool) :
    (List.ofFn fun i => (f i).toNat * 2 ^ i.val).sum = Nat.ofBits f := by
  induction n with
  | zero => rfl
  | succ n ih =>
    have hshift : (List.ofFn fun i : Fin n => (f i.succ).toNat * 2 ^ i.succ.val).sum =
        2 * Nat.ofBits (f ∘ Fin.succ) := by
      rw [← ih, List.sum_ofFn, List.sum_ofFn, Finset.mul_sum]
      exact Finset.sum_congr rfl fun i _ => by
        rw [Fin.val_succ, pow_succ', mul_left_comm, Function.comp_apply]
    rw [List.ofFn_succ, List.sum_cons, hshift, Nat.ofBits_succ, Fin.val_zero, pow_zero, mul_one, Nat.add_comm]

/-- `SW_BIT(i) = i` (93_implementation_defined.md I11). -/
theorem cfg_swBit : ∀ i : Fin cfg.nSw, cfg.swBit[i] = i.val := by decide

/-- SWITCH_MAP is the number whose bits are the switches. -/
theorem switchMap_eq_ofBits (a : cfg.AuxVector) :
    switchMap cfg a = BitVec.ofNat 8 (Nat.ofBits fun i : Fin cfg.nSw => switchOn cfg a[i]) := by
  have hweight : (fun i : Fin cfg.nSw => (switchOn cfg a[i]).toNat * 2 ^ cfg.swBit[i]) =
      fun i => (switchOn cfg a[i]).toNat * 2 ^ i.val :=
    funext fun i => congrArg (_ * 2 ^ ·) (cfg_swBit i)
  rw [switchMap, hweight, sum_ofFn_toNat_mul_two_pow]

/-- Bit `i` of SWITCH_MAP is switch `i`. -/
theorem switchMap_getLsbD (a : cfg.AuxVector) (i : Nat) (h : i < cfg.nSw) :
    (switchMap cfg a).getLsbD i = switchOn cfg a[i] := by
  have h8 : i < 8 := h
  rw [switchMap_eq_ofBits, BitVec.getLsbD_ofNat, Nat.testBit_ofBits_lt _ _ h, decide_eq_true h8, Bool.true_and]
  rfl

/-- Settles O53: switch `i` comes from channel `8 + i`. -/
theorem switchBitsFollowTheThreshold : Obligations.SwitchBitsFollowTheThreshold := by
  intro ch i h
  have haux : (auxChannels cfg ch)[i]'h = ch[8 + i]'(Nat.add_lt_add_left h 8) := Vector.getElem_ofFn ..
  rw [reportOf, switchMap_getLsbD _ i h, haux, switchOn]

/-! ## What a decode depends on (42_decoder.md R148) -/

/-- Buffers with equal bytes at 3 to 24 hold the same payload. -/
theorem payload_eq_of_bufRead {s s' : State} (h : ∀ a, 3 ≤ a → a ≤ 24 → s.bufRead a = s'.bufRead a) :
    s.payload = s'.payload := Vector.ext fun k hk => by
  have hk' : k < 22 := hk
  rw [payload_getElem, payload_getElem, h (3 + k) (by omega) (by omega)]

/-- Settles O55: a decode reads the payload alone. -/
theorem equalPayloadsGiveEqualReports : Obligations.EqualPayloadsGiveEqualReports := by
  intro s s' t t' hbytes ht ht'
  have hreport : t.report = t'.report := by
    rw [report_of_exec_decAcceptRc ht, report_of_exec_decAcceptRc ht', payload_eq_of_bufRead hbytes]
  exact ⟨hreport, congrArg (reportBytes cfg) hreport⟩

end Sys2Proof.Machine
end

