-- ==== Sys2Proof/Proofs/Dispatcher.lean ====
section
/-! PROOFS. The Report Dispatcher (43_dispatcher.md): its operations (R170 to R172) and the delivery law (R173). -/
namespace Sys2Proof.Machine

/-! ## The operations of stage G (43_dispatcher.md R170 to R172) -/

theorem exists_dispIdle_mem_fire {s : State} : (∃ h, .dispIdle h ∈ fire .dsp s) ↔ s.ready = false := by
  simp [mem_fire_dsp]

theorem dispSend_mem_fire {s : State} : .dispSend ∈ fire .dsp s ↔ s.ready = true ∧ s.inp.hidReady = true := by
  simp [mem_fire_dsp]

theorem dispDrop_mem_fire {s : State} : .dispDrop ∈ fire .dsp s ↔ s.ready = true ∧ s.inp.hidReady = false := by
  simp [mem_fire_dsp]

/-- Settles O18: the operand is HIDR, and it selects nothing. -/
theorem dispIdleDoesNothing : Obligations.DispIdleDoesNothing := fun _ _ => ⟨exists_dispIdle_mem_fire, rfl⟩

/-- Settles O19: the selection is READY and HIDR, and the id offered is `P_REPORT_ID`. -/
theorem dispSendOffersTheReport : Obligations.DispSendOffersTheReport := fun _ => ⟨dispSend_mem_fire, rfl⟩

/-- Settles O20: the selection is READY without HIDR, and the report is no part of the effect. -/
theorem dispDropClearsReady : Obligations.DispDropClearsReady := fun _ => ⟨dispDrop_mem_fire, rfl⟩

/-! ## The delivery law (43_dispatcher.md R173) -/

/-- Stages D and E trace no DISP_SEND. -/
theorem dispSend_mem_received_trace {s : State} : .dispSend ∈ (received s).trace ↔ .dispSend ∈ s.trace := by
  unfold received
  cases s.inp.uartRxValid
  · exact Iff.rfl
  · rw [if_pos rfl, postAppended_trace, appended_trace, List.mem_append]
    refine or_iff_left ?_
    split
    · split <;> simp
    · split <;> simp

/-- Stages A to E of an RC-path tick trace no DISP_SEND. -/
theorem dispSend_not_mem_trace_before_dispatch (s : State) :
    .dispSend ∉ (received (gapChecked (rcStart s))).trace := by
  rw [dispSend_mem_received_trace, gapChecked_trace]
  cases flagGap cfg (rcStart s) <;> simp

/-- An RC-path tick traces DISP_SEND exactly when it strobes `hid_send` (43_dispatcher.md R171). -/
theorem dispSend_mem_rcResult_trace {s : State} :
    .dispSend ∈ (rcResult s.beginTick).trace ↔ (rcResult s.beginTick).out.hidSend = true := by
  have hinp : (received (gapChecked (rcStart s))).inp = s.nextInputs := by simp
  rw [rcResult_hidSend_iff, rcResult, dispatched_trace, hinp, List.mem_append,
    or_iff_right (dispSend_not_mem_trace_before_dispatch s), List.mem_ite_nil_right]
  refine and_congr_right fun _ => ?_
  cases s.nextInputs.hidReady <;> simp

/-- An RC-path tick that decodes completes a frame before it, and sends or drops the report after it. -/
theorem rcResult_trace_of_decode {s : State} (h : s.ready = false)
    (hd : .decAcceptRc ∈ (rcResult s.beginTick).trace) : (rcResult s.beginTick).trace =
      [.rxComplete, .decAcceptRc, if s.nextInputs.hidReady = true then .dispSend else .dispDrop] := by
  have hready : (gapChecked (rcStart s)).ready = false := by simpa using h
  obtain ⟨hu, hdone, haccepted⟩ := (received_ready_iff hready).mp ((decAcceptRc_mem_rcResult_trace h).mp hd)
  have hbyte : s.nextInputs.uartRxValid = true := by simpa using hu
  rw [rcResult_trace h, hbyte, hdone, Bool.and_self, if_pos rfl, if_pos haccepted]

/-- Settles O41: a reset or bridge-path tick neither decodes nor sends, and an RC-path tick that sends has decoded. -/
theorem everyDecodeIsSentOrDropped : Obligations.EveryDecodeIsSentOrDropped := by
  intro s t hs h
  have hready : t.ready = false := (boundaryInvariantIsKept s t hs h).not_ready
  rcases step_cases h with ⟨-, rfl⟩ | ⟨-, -, rfl⟩ | ⟨-, -, -, -, rfl⟩
  · have htrace : (wasReset s.beginTick).trace = [.reset] := rfl
    have hsend : (wasReset s.beginTick).out.hidSend = false := rfl
    simp [htrace, hsend, hready]
  · obtain ⟨hdecode, hsend⟩ := bridge_no_report s
    exact ⟨(absurd · hdecode), iff_of_false (by simp [bridge_hidSend]) hsend, (absurd · hsend), hready⟩
  · refine ⟨fun hd => ?_, dispSend_mem_rcResult_trace.symm,
      fun hsend => decAcceptRc_mem_of_hidSend hs.not_ready (dispSend_mem_rcResult_trace.mp hsend), hready⟩
    rw [rcResult_inp]
    exact rcResult_trace_of_decode hs.not_ready hd

end Sys2Proof.Machine
end

