-- ==== Sys2Proof/Proofs/Arbiter.lean ====
section
/-! PROOFS. The Bridge Arbiter (44_arbiter.md): its operations (R181 to R187), the isolation of the bridge path (R188),
the session law (R189) and a byte that cannot be delivered (R190). -/
namespace Sys2Proof.Machine

/-! ## Stage A (44_arbiter.md R181 to R183) -/

theorem arbIdleRc_mem_fire {s : State} :
    .arbIdleRc ∈ fire .arb s ↔ s.mode = .idle ∧ s.inp.vserRxValid = false := by
  simp [mem_fire_arb]

theorem arbEnter_mem_fire {s : State} :
    .arbEnter ∈ fire .arb s ↔ s.mode = .idle ∧ s.inp.vserRxValid = true := by
  simp [mem_fire_arb]

theorem arbBridge_mem_fire {s : State} {vrx : Bool} :
    .arbBridge vrx ∈ fire .arb s ↔ s.mode = .bridging ∧ vrx = s.inp.vserRxValid := by
  simp [mem_fire_arb]

/-- Where ARB_IDLE_RC is selected, the RC path runs on the state it leaves untouched (44_arbiter.md R181). -/
theorem arbitrate_eq_rcPath {b : State} (hm : b.mode = .idle) (hv : b.inp.vserRxValid = false) :
    arbitrate b = rcPath (b.noteOp .arbIdleRc) := by
  rw [arbitrate_of_rc hm hv, runStage_arb_of_rc hm hv, andThen_next]

/-- Settles O2. -/
theorem arbIdleRcRunsTheRcPath : Obligations.ArbIdleRcRunsTheRcPath := by
  refine fun s => ⟨arbIdleRc_mem_fire, rfl, fun hfires => ?_⟩
  obtain ⟨hm, hv⟩ := arbIdleRc_mem_fire.mp hfires
  exact arbitrate_eq_rcPath hm hv

/-- Settles O3: the timer ARB_ENTER stamps is the time the relay compares it with. -/
theorem arbEnterOpensTheBridge : Obligations.ArbEnterOpensTheBridge := by
  refine fun s => ⟨arbEnter_mem_fire, rfl, fun hfires => ?_, fun t ht => ?_⟩
  · obtain ⟨hm, hv⟩ := arbEnter_mem_fire.mp hfires
    rw [arbitrate_eq, if_neg (by simp [flagMode_idle hm]), if_pos hv]
    rfl
  · cases ht
    exact entered_bto s

/-- Settles O4: the operand is VRX, and it selects nothing. -/
theorem arbBridgeRunsTheRelay : Obligations.ArbBridgeRunsTheRelay := by
  refine fun s vrx => ⟨by simp [arbBridge_mem_fire], rfl, fun hfires => ?_⟩
  obtain ⟨hm, rfl⟩ := arbBridge_mem_fire.mp hfires
  rw [arbitrate_eq, if_pos (flagMode_bridging hm)]

/-! ## Stage B (44_arbiter.md R184 to R187) -/

theorem exists_brU2s_mem_fire {s : State} : (∃ g b, .brU2s g b ∈ fire .br s) ↔ flagU2sGo s = true := by
  simp [mem_fire_br]

theorem exists_brS2u_mem_fire {s : State} : (∃ g b, .brS2u g b ∈ fire .br s) ↔ flagS2uGo s = true := by
  simp [mem_fire_br]

theorem brHold_mem_fire {s : State} :
    .brHold ∈ fire .br s ↔ byteMoves s.inp = false ∧ flagBto cfg s = false := by
  simp [mem_fire_br, byteMoves_eq, and_assoc]

theorem arbExit_mem_fire {s : State} :
    .arbExit ∈ fire .br s ↔ byteMoves s.inp = false ∧ flagBto cfg s = true := by
  simp [mem_fire_br, byteMoves_eq, and_assoc]

theorem flagBto_eq_false_iff {s : State} :
    flagBto cfg s = false ↔ elapsed32 s.inp.nowMs s.brLastMs < cfg.bridgeIdleMs := by
  rw [← Bool.not_eq_true, flagBto_iff, Nat.not_le]

/-- Settles O5: the selection is U2S_GO, and the operands select nothing. -/
theorem brU2sRelaysOneByteToTheUart : Obligations.BrU2sRelaysOneByteToTheUart := fun _ _ _ =>
  ⟨exists_brU2s_mem_fire.trans flagU2sGo_iff, rfl⟩

/-- Settles O6: the selection is S2U_GO, and the operands select nothing. -/
theorem brS2uRelaysOneByteToVser : Obligations.BrS2uRelaysOneByteToVser := fun _ _ _ =>
  ⟨exists_brS2u_mem_fire.trans flagS2uGo_iff, rfl⟩

/-- Settles O7: the selection is BTO = 0 with both GO bits 0. -/
theorem brHoldWaits : Obligations.BrHoldWaits := fun _ =>
  ⟨brHold_mem_fire.trans (and_congr_right' flagBto_eq_false_iff), rfl⟩

/-- Settles O8: the selection is BTO = 1 with both GO bits 0. -/
theorem arbExitClosesTheBridge : Obligations.ArbExitClosesTheBridge := fun _ =>
  ⟨arbExit_mem_fire.trans (and_congr_right' flagBto_iff), rfl⟩

/-! ## Isolation of the bridge path (44_arbiter.md R188) -/

/-- Everything the bridge path reads or writes is the same in both states: the arbiter's own two elements, the ports,
and the observations of the tick. Nothing is said of the RC elements. -/
structure SameBridge (s t : State) : Prop where
  mode : t.mode = s.mode
  brLastMs : t.brLastMs = s.brLastMs
  inp : t.inp = s.inp
  out : t.out = s.out
  trace : t.trace = s.trace
  fired : t.fired = s.fired

namespace SameBridge
variable {s t : State} (h : SameBridge s t)
include h

theorem flagMode_eq : flagMode t = flagMode s := by rw [flagMode, flagMode, h.mode]

theorem flagU2sGo_eq : flagU2sGo t = flagU2sGo s := by rw [flagU2sGo, flagU2sGo, h.inp]

theorem flagS2uGo_eq : flagS2uGo t = flagS2uGo s := by rw [flagS2uGo, flagS2uGo, h.inp]

theorem flagBto_eq : flagBto cfg t = flagBto cfg s := by
  rw [Bool.eq_iff_iff, flagBto_iff, flagBto_iff, h.inp, h.brLastMs]

theorem fire_arb_eq : fire .arb t = fire .arb s := by rw [fire_arb, fire_arb, h.flagMode_eq, h.inp]

theorem fire_br_eq : fire .br t = fire .br s := by rw [fire_br, fire_br, h.flagU2sGo_eq, h.flagS2uGo_eq, h.flagBto_eq]

theorem onBridge_of (hb : onBridge s) : onBridge t := by rwa [onBridge, h.mode, h.inp]

/-- Stage A reads and writes nothing else (44_arbiter.md R182, R183). -/
theorem after_arbiter (hb : onBridge s) : SameBridge (arbitrated s) (arbitrated t) where
  mode := by rw [arbitrated_mode, arbitrated_mode]
  brLastMs := by rw [arbitrated_brLastMs, arbitrated_brLastMs, h.flagMode_eq, h.brLastMs, h.inp]
  inp := by rw [arbitrated_inp, arbitrated_inp, h.inp]
  out := by rw [arbitrated_out, arbitrated_out, h.out]
  trace := by rw [arbitrated_trace, arbitrated_trace, h.flagMode_eq, h.trace]
  fired := by rw [arbitrated_fired _ hb, arbitrated_fired _ (h.onBridge_of hb), h.fire_arb_eq, h.fired]

/-- Stage B reads and writes nothing else (44_arbiter.md R184 to R187). -/
theorem after_relay : SameBridge (relayed s) (relayed t) where
  mode := by rw [relayed_mode, relayed_mode, h.flagU2sGo_eq, h.flagS2uGo_eq, h.flagBto_eq, h.mode]
  brLastMs := by rw [relayed_brLastMs, relayed_brLastMs, h.flagU2sGo_eq, h.flagS2uGo_eq, h.inp, h.brLastMs]
  inp := by rw [relayed_inp, relayed_inp, h.inp]
  out := by rw [relayed_out, relayed_out, h.flagU2sGo_eq, h.flagS2uGo_eq, h.inp, h.out]
  trace := by rw [relayed_trace, relayed_trace, h.flagU2sGo_eq, h.flagS2uGo_eq, h.flagBto_eq, h.trace]
  fired := by rw [relayed_fired, relayed_fired, h.fire_br_eq, h.fired]
end SameBridge

/-- Settles O40: both ticks start from states that differ in the RC elements at most, and neither stage of the bridge path
reads or writes one. -/
theorem bridgePathIsIsolated : Obligations.BridgePathIsIsolated := by
  intro s s' hr hb hinp hmode hlast
  have hstart : SameBridge s.beginTick s'.beginTick := ⟨hmode, hlast, hinp, rfl, rfl, rfl⟩
  have hend := (hstart.after_arbiter hb).after_relay
  exact ⟨_, _, step_bridge hr hb, step_bridge (hinp ▸ hr) (hstart.onBridge_of hb), bridge_sameRc s, bridge_sameRc s',
    bridge_hidSend s, hend.out, hend.mode, hend.brLastMs, hend.trace, hend.fired⟩

/-! ## One tick of a session (44_arbiter.md R180) -/

/-- What every bridge-path tick leaves of the RC path, and of the script. -/
structure RelaysOnly (s t : State) : Prop where
  same_rc : SameRc s t
  no_report : t.out.hidSend = false
  script : t.script = s.script.tail

section
variable {s : State} (hr : s.nextInputs.rst = false)
include hr

theorem step_relaysOnly (hb : s.mode = .bridging ∨ s.nextInputs.vserRxValid = true) :
    ∃ t, step s = .next t ∧ RelaysOnly s t := by
  obtain ⟨t, hstep, hrc, hsend, -, hscript, -⟩ := step_bridge_facts hr hb
  exact ⟨t, hstep, hrc, hsend, hscript⟩

/-- The tick that opens a session stamps the timer, whether or not it relays the byte that opened it
(44_arbiter.md R182). -/
theorem step_enter (hm : s.mode = .idle) (hv : s.nextInputs.vserRxValid = true) :
    ∃ t, step s = .next t ∧ RelaysOnly s t ∧ t.mode = .bridging ∧ t.brLastMs = s.nextInputs.nowMs ∧
      .arbEnter ∈ t.trace := by
  obtain ⟨t, hstep, hrc, hsend, -, hscript, hmove, hstill, -, henter⟩ := step_bridge_facts hr (.inr hv)
  refine ⟨t, hstep, ⟨hrc, hsend, hscript⟩, ?_⟩
  cases hbyte : byteMoves s.nextInputs with
  | true =>
    obtain ⟨hmode, hlast⟩ := hmove hbyte
    exact ⟨hmode, hlast, henter hm⟩
  | false =>
    obtain ⟨hmode, hlast, -⟩ := hstill hbyte hm
    exact ⟨hmode, hlast, henter hm⟩

/-- A tick with a move, or before the timeout, leaves the session open, the move stamped (44_arbiter.md R184 to R186). -/
theorem step_stays (hm : s.mode = .bridging)
    (hopen : byteMoves s.nextInputs = true ∨ elapsed32 s.nextInputs.nowMs s.brLastMs < cfg.bridgeIdleMs) :
    ∃ t, step s = .next t ∧ RelaysOnly s t ∧ t.mode = .bridging ∧
      t.brLastMs = if byteMoves s.nextInputs then s.nextInputs.nowMs else s.brLastMs := by
  obtain ⟨t, hstep, hrc, hsend, -, hscript, hmove, -, hstill, -⟩ := step_bridge_facts hr (.inl hm)
  refine ⟨t, hstep, ⟨hrc, hsend, hscript⟩, ?_⟩
  cases hbyte : byteMoves s.nextInputs with
  | true => exact hmove hbyte
  | false =>
    obtain ⟨hlast, -, hhold, -⟩ := hstill hbyte hm
    exact ⟨(hhold (hopen.resolve_left (by simp [hbyte]))).1, hlast⟩

/-- A tick without a move at the timeout closes the session (44_arbiter.md R187). -/
theorem step_exit (hm : s.mode = .bridging) (hbyte : byteMoves s.nextInputs = false)
    (hlate : cfg.bridgeIdleMs ≤ elapsed32 s.nextInputs.nowMs s.brLastMs) :
    ∃ t, step s = .next t ∧ RelaysOnly s t ∧ t.mode = .idle ∧ t.trace = [.arbExit] ∧ t.out = Outputs.defaults := by
  obtain ⟨t, hstep, hrc, hsend, -, hscript, -, -, hstill, -⟩ := step_bridge_facts hr (.inl hm)
  obtain ⟨-, hout, -, hexit⟩ := hstill hbyte hm
  obtain ⟨hmode, htrace⟩ := hexit hlate
  exact ⟨t, hstep, ⟨hrc, hsend, hscript⟩, hmode, htrace, hout⟩
end

/-! ## The session law (44_arbiter.md R189) -/

/-- A session entered from `s` is open in `t`, with its last move at `last` and the script `is` still to be played. -/
structure InSession (s : State) (last : Time) (is : List Inputs) (t : State) : Prop where
  mode : t.mode = .bridging
  brLastMs : t.brLastMs = last
  same_rc : SameRc s t
  no_report : t.out.hidSend = false
  script : t.script = is

theorem sessionGoesOn_cons {last : Time} {i : Inputs} {is : List Inputs} :
    sessionGoesOn last (i :: is) = true ↔ i.rst = false ∧
      (byteMoves i = true ∨ elapsed32 i.nowMs last < cfg.bridgeIdleMs) ∧
      sessionGoesOn (if byteMoves i then i.nowMs else last) is = true := by
  cases hbyte : byteMoves i <;> simp [sessionGoesOn, hbyte]

theorem inSession_of_enter {s : State} {enter : Inputs} {is : List Inputs} (hm : s.mode = .idle)
    (hscript : s.script = enter :: is) (hr : enter.rst = false) (hv : enter.vserRxValid = true) :
    ∃ t, step s = .next t ∧ InSession s enter.nowMs is t := by
  have hi := nextInputs_cons hscript
  obtain ⟨t, hstep, htick, hmode, hlast, -⟩ := step_enter (hi ▸ hr) hm (hi ▸ hv)
  exact ⟨t, hstep, hmode, hi ▸ hlast, htick.same_rc, htick.no_report, by rw [htick.script, hscript, List.tail_cons]⟩

namespace InSession
variable {s t : State} {last : Time} {is : List Inputs}

theorem tick_stays {i : Inputs} (h : InSession s last (i :: is) t) (hr : i.rst = false)
    (hopen : byteMoves i = true ∨ elapsed32 i.nowMs last < cfg.bridgeIdleMs) :
    ∃ u, step t = .next u ∧ InSession s (if byteMoves i then i.nowMs else last) is u := by
  have hi := nextInputs_cons h.script
  obtain ⟨u, hstep, htick, hmode, hlast⟩ :=
    step_stays (hi ▸ hr) h.mode (by rwa [hi, h.brLastMs])
  exact ⟨u, hstep, hmode, by rw [hlast, hi, h.brLastMs], h.same_rc.trans htick.same_rc, htick.no_report,
    by rw [htick.script, h.script, List.tail_cons]⟩

/-- Through ticks that leave it open, the session's timer is at its last move. -/
theorem run_stays {js : List Inputs} : ∀ {pre : List Inputs} {t : State} {last : Time},
    InSession s last (pre ++ is) t → sessionGoesOn last (pre ++ js) = true →
    ∃ u, run pre.length t = .next u ∧ InSession s (lastMove last pre) is u
  | [], t, _, h, _ => ⟨t, rfl, h⟩
  | i :: pre, t, last, h, hgo => by
    obtain ⟨hr, hopen, hgo'⟩ := sessionGoesOn_cons.mp hgo
    obtain ⟨u, hstep, hu⟩ := h.tick_stays hr hopen
    obtain ⟨v, hrun, hv⟩ := hu.run_stays hgo'
    exact ⟨v, by rw [List.length_cons, run_succ _ hstep, hrun], hv⟩

theorem tick_exits {i : Inputs} (h : InSession s last (i :: is) t) (hr : i.rst = false) (hbyte : byteMoves i = false)
    (hlate : cfg.bridgeIdleMs ≤ elapsed32 i.nowMs last) :
    ∃ u, step t = .next u ∧ u.mode = .idle ∧ u.trace = [.arbExit] ∧ SameRc s u ∧ u.script = is := by
  have hi := nextInputs_cons h.script
  obtain ⟨u, hstep, htick, hmode, htrace, -⟩ :=
    step_exit (hi ▸ hr) h.mode (hi ▸ hbyte) (by rwa [hi, h.brLastMs])
  exact ⟨u, hstep, hmode, htrace, h.same_rc.trans htick.same_rc, by rw [htick.script, h.script, List.tail_cons]⟩
end InSession

/-- A tick from IDLE without a VSER byte is on the RC path (44_arbiter.md R181). -/
theorem step_eq_rcPath {s : State} (hm : s.mode = .idle) (hr : s.nextInputs.rst = false)
    (hv : s.nextInputs.vserRxValid = false) : step s = rcPath (s.beginTick.noteOp .arbIdleRc) :=
  (step_eq_arbitrate hr).trans (arbitrate_eq_rcPath hm hv)

/-- Settles O46: ARB_ENTER opens the session, every tick up to the exit leaves it open, and the exit closes it. -/
theorem sessionLastsUntilTheTimeout : Obligations.SessionLastsUntilTheTimeout := by
  intro s enter exit ins rest hm hscript hr hv hgo hrx hbyte hlate
  obtain ⟨e, hstep, he⟩ := inSession_of_enter (is := ins ++ exit :: rest) hm hscript hr hv
  refine ⟨fun k hk hle => ?_, ?_⟩
  · obtain ⟨k, rfl⟩ := Nat.exists_eq_add_of_le' hk
    rw [← List.take_append_drop k ins] at hgo he
    rw [List.append_assoc] at he
    obtain ⟨u, hrun, hu⟩ := he.run_stays hgo
    rw [List.length_take_of_le (Nat.le_of_succ_le_succ hle)] at hrun
    exact ⟨u, (run_succ k hstep).trans hrun, hu.mode, hu.brLastMs, hu.same_rc, hu.no_report⟩
  · obtain ⟨u, hrun, hu⟩ := he.run_stays (js := []) (by rwa [List.append_nil])
    obtain ⟨t, hexit, hmode, htrace, hrc, hrest⟩ := hu.tick_exits hrx hbyte hlate
    exact ⟨t, run_succ_of_run ((run_succ _ hstep).trans hrun) hexit, hmode, htrace, hrc, hrest, step_eq_rcPath hmode⟩

/-! ## A VSER byte that stays present (44_arbiter.md R190) -/

/-- A VSER byte keeps the tick on the bridge path, from either mode. -/
theorem run_stalled {s : State} {ins rest : List Inputs} (hscript : s.script = ins ++ rest)
    (hins : ∀ i ∈ ins, i.rst = false ∧ i.vserRxValid = true) : ∀ k, k ≤ ins.length →
    ∃ u, run k s = .next u ∧ SameRc s u ∧ (1 ≤ k → u.out.hidSend = false) ∧ u.script = ins.drop k ++ rest
  | 0, _ => ⟨s, rfl, ⟨rfl, rfl, rfl, rfl, rfl, rfl⟩, nofun, hscript⟩
  | k + 1, hk => by
    obtain ⟨u, hrun, hrc, -, hdrop⟩ := run_stalled hscript hins k (Nat.le_of_succ_le hk)
    rw [List.drop_eq_getElem_cons hk, List.cons_append] at hdrop
    obtain ⟨hr, hv⟩ := hins ins[k] (List.getElem_mem hk)
    have hi := nextInputs_cons hdrop
    obtain ⟨t, hstep, htick⟩ := step_relaysOnly (s := u) (hi ▸ hr) (.inr (hi ▸ hv))
    exact ⟨t, run_succ_of_run hrun hstep, hrc.trans htick.same_rc, fun _ => htick.no_report,
      by rw [htick.script, hdrop, List.tail_cons]⟩

/-- Settles O47: the byte keeps every tick on the bridge path, and after an exit it opens the next session. -/
theorem stalledByteLocksOutTheRcPath : Obligations.StalledByteLocksOutTheRcPath := by
  intro s ins rest hscript hins
  refine ⟨fun k hk => ?_, ?_⟩
  · obtain ⟨u, hrun, hrc, hsend, -⟩ := run_stalled hscript hins k hk
    exact ⟨u, hrun, hrc, hsend⟩
  · rintro x y more rfl hm hbyte hlate
    obtain ⟨hrx, -⟩ := hins x (by simp)
    obtain ⟨hry, hvy⟩ := hins y (by simp)
    have hx := nextInputs_cons hscript
    obtain ⟨t, hexit, htick, hidle, htrace, hout⟩ := step_exit (hx ▸ hrx) hm (hx ▸ hbyte) (by rwa [hx])
    have hy : t.nextInputs = y := nextInputs_cons (by rw [htick.script, hscript]; rfl)
    obtain ⟨u, henter, -, hmode, hlast, hmem⟩ := step_enter (hy ▸ hry) hidle (hy ▸ hvy)
    have hrun : run 1 s = .next t := run_succ 0 hexit
    exact ⟨t, u, hrun, hidle, htrace, hout, run_succ_of_run hrun henter, hmode, hmem, hy ▸ hlast⟩

end Sys2Proof.Machine
end

/-! PROOFS. No exceptions (60_exceptions.md): every tick completes (R200), and the traces it can leave (R204). -/
namespace Sys2Proof.Machine

/-! ## Nothing stops the block (60_exceptions.md R200) -/

/-- At a tick boundary the gap check leaves a free index for the tick's byte (20_memory.md R51). -/
theorem AtBoundary.room_after_gapCheck {s : State} (hs : AtBoundary s) :
    (gapChecked (rcStart s)).pos < cfg.bufCap := by
  rcases gapChecked_pos_or (rcStart s) with hpos | hpos
  · rw [hpos]
    exact hs.pos_lt
  · rw [hpos]
    exact Nat.zero_lt_succ 66

/-- Settles O32: RESET and the bridge path never stop, and the RC path has room for its byte. -/
theorem everyTickCompletes : Obligations.EveryTickCompletes := by
  intro s hs
  cases hr : s.nextInputs.rst with
  | true => exact ⟨_, step_reset hr⟩
  | false =>
    cases hm : s.mode with
    | bridging => exact ⟨_, step_bridge hr (.inl hm)⟩
    | idle =>
      cases hv : s.nextInputs.vserRxValid with
      | true => exact ⟨_, step_bridge hr (.inr hv)⟩
      | false => exact ⟨_, step_rc hr hm hv fun _ => hs.room_after_gapCheck⟩

/-! ## The traces of a tick, by path (60_exceptions.md R204) -/

/-- The relay adds the events of its moves or BR_HOLD; it adds ARB_EXIT only where the timeout has run. -/
theorem relayed_trace_cases (b : State) :
    (∃ es ∈ relayTraces, (relayed b).trace = b.trace ++ es) ∨
      (flagBto cfg b = true ∧ (relayed b).trace = b.trace ++ [.arbExit]) := by
  rw [relayed_trace]
  cases flagU2sGo b with
  | true =>
    cases flagS2uGo b with
    | true => exact .inl ⟨[.brU2s, .brS2u], by decide, rfl⟩
    | false => exact .inl ⟨[.brU2s], by decide, rfl⟩
  | false =>
    cases flagS2uGo b with
    | true => exact .inl ⟨[.brS2u], by decide, rfl⟩
    | false =>
      cases flagBto cfg b with
      | true => exact .inr ⟨rfl, rfl⟩
      | false => exact .inl ⟨[.brHold], by decide, rfl⟩

/-- From IDLE the arbiter hands over the state ARB_ENTER leaves (44_arbiter.md R182). -/
theorem arbitrated_of_idle {b : State} (hm : b.mode = .idle) : arbitrated b = entered b := by
  rw [arbitrated, if_neg (by simp [flagMode_idle hm])]

/-- From BRIDGING the arbiter writes nothing (44_arbiter.md R183). -/
theorem arbitrated_of_bridging {b : State} (hm : b.mode = .bridging) :
    arbitrated b = b.noteOp (.arbBridge b.inp.vserRxValid) := by
  rw [arbitrated, if_pos (flagMode_bridging hm)]

/-- A tick that enters the bridge does not leave it: its timer has just been stamped (44_arbiter.md R182). -/
theorem bridge_trace_of_idle {s : State} (hm : s.mode = .idle) :
    (relayed (arbitrated s.beginTick)).trace ∈ relayTraces.map (.arbEnter :: ·) := by
  rw [arbitrated_of_idle (b := s.beginTick) hm]
  rcases relayed_trace_cases (entered s.beginTick) with ⟨es, hes, htrace⟩ | ⟨hbto, -⟩
  · rw [htrace]
    exact List.mem_map_of_mem hes
  · rw [entered_bto] at hbto
    cases hbto

theorem bridge_trace_of_bridging {s : State} (hm : s.mode = .bridging) :
    (relayed (arbitrated s.beginTick)).trace ∈ relayTraces ++ [[.arbExit]] := by
  rw [arbitrated_of_bridging (b := s.beginTick) hm]
  rcases relayed_trace_cases (s.beginTick.noteOp (.arbBridge s.beginTick.inp.vserRxValid)) with
    ⟨es, hes, htrace⟩ | ⟨-, htrace⟩
  · rw [htrace]
    exact List.mem_append_left _ hes
  · rw [htrace]
    exact List.mem_append_right _ (List.mem_singleton.mpr rfl)

/-- With no report pending before it, an RC-path tick completes a frame, or overflows, or finds a gap, or shows no
event. -/
theorem rcResult_trace_mem_rcTraces {s : State} (h : s.ready = false) : (rcResult s.beginTick).trace ∈ rcTraces := by
  rw [rcResult_trace h]
  split
  case isTrue =>
    split
    case isTrue => cases s.nextInputs.hidReady <;> decide
    case isFalse => decide
  case isFalse =>
    split
    case isTrue => decide
    case isFalse => split <;> decide

/-- Settles O37: `rst`, the mode and the VSER byte decide which path the tick took, and each path has its traces. -/
theorem tracesAreTheListedOnes : Obligations.TracesAreTheListedOnes := by
  intro s t hs h
  rcases step_cases h with ⟨hr, rfl⟩ | ⟨hr, hb, rfl⟩ | ⟨hr, hm, hv, -, rfl⟩
  · have hrst : (wasReset s.beginTick).inp.rst = true := hr
    have htrace : (wasReset s.beginTick).trace = [.reset] := rfl
    simp [hrst, htrace]
  · have hrst : (relayed (arbitrated s.beginTick)).inp.rst = false := by simpa using hr
    refine ⟨fun hreset => absurd (hrst.symm.trans hreset) Bool.false_ne_true, fun _ hm hv => ?_,
      fun _ hm _ => bridge_trace_of_idle hm, fun _ hm => bridge_trace_of_bridging hm⟩
    have hvser : s.nextInputs.vserRxValid = true := hb.resolve_left (by simp [hm])
    simp [hvser] at hv
  · have hlisted := rcResult_trace_mem_rcTraces hs.not_ready
    simp [hr, hm, hv, hlisted]

end Sys2Proof.Machine

/-! PROOFS. Reset (70_reset_and_hazards.md): RESET itself (R230), and what the first ticks after it do (R231). -/
namespace Sys2Proof.Machine

/-! ## Stage R (70_reset_and_hazards.md R230) -/

theorem reset_mem_fire {s : State} : .reset ∈ fire .rst s ↔ s.inp.rst = true := by
  simp [fire_rst]

/-- Settles O1: the selection is RST, and a buffer with no listed byte reads 0x00 everywhere. -/
theorem resetRestoresEveryElement : Obligations.ResetRestoresEveryElement := fun _ =>
  ⟨reset_mem_fire, rfl, Memory.read_nil⟩

/-! ## The first VSER byte (70_reset_and_hazards.md R231 item 1) -/

/-- A state RESET left, with a script loaded, is a tick boundary. -/
theorem setScript_reset_atBoundary (ins : List Inputs) : AtBoundary (State.reset.setScript ins) :=
  atBoundary_of_empty rfl rfl rfl

/-- At an idle tick boundary a tick with neither `rst` nor a VSER byte is on the RC path and completes. -/
theorem AtBoundary.step_eq_rcResult {s : State} (hs : AtBoundary s) (hm : s.mode = .idle)
    (hr : s.nextInputs.rst = false) (hv : s.nextInputs.vserRxValid = false) : step s = .next (rcResult s.beginTick) :=
  step_rc hr hm hv fun _ => hs.room_after_gapCheck

/-- The RC path does not leave IDLE: until a VSER byte comes, every tick ends at an idle tick boundary. -/
theorem AtBoundary.run_stays_idle {is : List Inputs} : ∀ {pre : List Inputs} {s : State}, AtBoundary s →
    s.mode = .idle → s.script = pre ++ is → (∀ j ∈ pre, j.rst = false ∧ j.vserRxValid = false) →
    ∃ t, run pre.length s = .next t ∧ t.mode = .idle ∧ t.script = is
  | [], s, _, hm, hscript, _ => ⟨s, rfl, hm, hscript⟩
  | j :: pre, s, hs, hm, hscript, hpre => by
    obtain ⟨⟨hr, hv⟩, hpre'⟩ := List.forall_mem_cons.mp hpre
    have hj : s.nextInputs = j := nextInputs_cons hscript
    have hstep := hs.step_eq_rcResult hm (hj ▸ hr) (hj ▸ hv)
    obtain ⟨t, hrun, ht⟩ := (rcResult_atBoundary hs).run_stays_idle (is := is) (by simpa using hm)
      (by simp [hscript]) hpre'
    exact ⟨t, (run_succ _ hstep).trans hrun, ht⟩

/-- The first VSER byte after RESET finds the block in IDLE, so its tick enters bridging (44_arbiter.md R182). -/
theorem first_vser_byte_enters {pre rest : List Inputs} {i : Inputs}
    (hpre : ∀ j ∈ pre, j.rst = false ∧ j.vserRxValid = false) (hr : i.rst = false) (hv : i.vserRxValid = true) :
    ∃ t, run (pre.length + 1) (State.reset.setScript (pre ++ i :: rest)) = .next t ∧ .arbEnter ∈ t.trace ∧
      t.brLastMs = i.nowMs ∧ t.mode = .bridging ∧ t.out.hidSend = false := by
  obtain ⟨u, hrun, hidle, hscript⟩ := (setScript_reset_atBoundary _).run_stays_idle (is := i :: rest) rfl rfl hpre
  have hi : u.nextInputs = i := nextInputs_cons hscript
  obtain ⟨t, hstep, htick, hmode, hlast, htrace⟩ := step_enter (hi ▸ hr) hidle (hi ▸ hv)
  exact ⟨t, run_succ_of_run hrun hstep, htrace, hi ▸ hlast, hmode, htick.no_report⟩

/-! ## The first UART byte (70_reset_and_hazards.md R231 item 2) -/

theorem uartBytes_eq_nil {is : List Inputs} (h : ∀ j ∈ is, j.uartRxValid = false) : uartBytes is = [] := by
  rw [uartBytes, List.filter_eq_nil_iff.mpr fun j hj => by simp [h j hj], List.map_nil]

/-- An attempt that has not begun has no gap, so any time may pass before its first byte (41_receiver.md R120 corner
case 2). -/
theorem attemptGoesOn_until_first_byte {last : Time} {i : Inputs} (hr : i.rst = false) (hv : i.vserRxValid = false) :
    ∀ {pre : List Inputs}, (∀ j ∈ pre, j.rst = false ∧ j.vserRxValid = false ∧ j.uartRxValid = false) →
    attemptGoesOn 0 last (pre ++ [i]) = true
  | [], _ => attemptGoesOn_cons.mpr ⟨hr, hv, .inl rfl, by simp [attemptGoesOn]⟩
  | j :: pre, hpre => by
    obtain ⟨⟨hrj, hvj, huj⟩, hpre'⟩ := List.forall_mem_cons.mp hpre
    have hrest : attemptGoesOn 0 last (pre ++ [i]) = true := attemptGoesOn_until_first_byte hr hv hpre'
    exact attemptGoesOn_cons.mpr ⟨hrj, hvj, .inl rfl, by simpa [huj] using hrest⟩

/-- An RC-path tick that accepts no frame sends nothing (43_dispatcher.md R173). -/
theorem rcResult_hidSend_of_no_decode {s : State} (h : s.ready = false)
    (hno : .decAcceptRc ∉ (rcResult s.beginTick).trace) : (rcResult s.beginTick).out.hidSend = false :=
  Bool.eq_false_iff.mpr (mt (decAcceptRc_mem_of_hidSend h) hno)

/-- The first byte of an attempt, whatever its value and its time, goes to index 0 and shows no event: one byte neither
completes a frame nor fills the buffer (41_receiver.md R122, R126). -/
theorem step_first_byte {s : State} {i : Inputs} {is : List Inputs} (hs : AtBoundary s) (hkeep : KeepsAttempt s i is)
    (hp : s.pos = 0) (hu : i.uartRxValid = true) :
    ∃ t, step s = .next t ∧ t.trace = [] ∧ t.mode = .idle ∧ t.pos = 1 ∧ t.bufRead 0 = i.uartRxData ∧
      t.lastRxUs = i.nowUs ∧ t.out.uartRxPop = true ∧ t.out.hidSend = false := by
  have hi : s.nextInputs = i := nextInputs_cons hkeep.script
  have hroom : s.pos + 1 ≠ cfg.bufCap := by
    rw [hp]
    decide
  obtain ⟨t, hstep, htrace, hmode, hpos, -, htime, -, -, hread⟩ :=
    attempt_continue hs hkeep hu (fun hdone => by omega) hroom
  obtain rfl : t = rcResult s.beginTick := Host.Outcome.next.inj
    (hstep.symm.trans (hs.step_eq_rcResult hkeep.mode (hi ▸ hkeep.rst) (hi ▸ hkeep.vser)))
  have hpop : (rcResult s.beginTick).out.uartRxPop = true := by rw [(rcResult_strobes s).1, hi, hu]
  have hsend := rcResult_hidSend_of_no_decode hs.not_ready (by simp [htrace])
  exact ⟨_, hstep, htrace, hmode, by rw [hpos, hp], by rw [hread, if_pos hp.symm], htime, hpop, hsend⟩

/-- Up to the first UART byte after RESET the attempt stays empty, so that byte is its first. -/
theorem first_uart_byte_is_stored {pre rest : List Inputs} {i : Inputs}
    (hpre : ∀ j ∈ pre, j.rst = false ∧ j.vserRxValid = false ∧ j.uartRxValid = false) (hr : i.rst = false)
    (hv : i.vserRxValid = false) (hu : i.uartRxValid = true) :
    ∃ t, run (pre.length + 1) (State.reset.setScript (pre ++ i :: rest)) = .next t ∧ t.trace = [] ∧ t.mode = .idle ∧
      t.pos = 1 ∧ t.bufRead 0 = i.uartRxData ∧ t.lastRxUs = i.nowUs ∧ t.out.uartRxPop = true ∧
      t.out.hidSend = false := by
  have hnone : uartBytes pre = [] := uartBytes_eq_nil fun j hj => (hpre j hj).2.2
  have hopen : Unfinished (uartBytes pre) := hnone ▸ ⟨by decide, nofun⟩
  obtain ⟨u, hrun, hheld, hkeep, -⟩ := (holdsBytes_nil (setScript_reset_atBoundary _) rfl rfl).run_to_last
    (rest := rest) rfl (attemptGoesOn_until_first_byte hr hv hpre) hopen
  rw [hnone] at hheld
  obtain ⟨t, hstep, ht⟩ := step_first_byte hheld.boundary hkeep hheld.pos hu
  exact ⟨t, run_succ_of_run hrun hstep, ht⟩

/-! ## No report before an accepted frame (70_reset_and_hazards.md R231 item 3) -/

/-- Nothing is being sent, and the report is as RESET leaves it. -/
structure Unreported (t : State) : Prop where
  no_send : t.out.hidSend = false
  report : t.report = Report.zero

/-- None of the first `n` ticks from `s` accepts a frame. -/
def AcceptsNoFrame (s : State) (n : Nat) : Prop :=
  ∀ (k : Nat) (u : State), 1 ≤ k → k ≤ n → run k s = .next u → .decAcceptRc ∉ u.trace

theorem AcceptsNoFrame.mono {s : State} {m n : Nat} (h : AcceptsNoFrame s n) (hle : m ≤ n) : AcceptsNoFrame s m :=
  fun k u hk hkm => h k u hk (hkm.trans hle)

/-- Only a tick that accepts a frame sends, and only such a tick gives the report another value than RESET's: RESET sets
that value, and the bridge path leaves the report alone. -/
theorem Unreported.step {s t : State} (h : Unreported s) (hs : AtBoundary s) (hstep : step s = .next t)
    (hno : .decAcceptRc ∉ t.trace) : Unreported t := by
  rcases step_cases hstep with ⟨-, rfl⟩ | ⟨-, -, rfl⟩ | ⟨-, -, -, -, rfl⟩
  · exact ⟨rfl, rfl⟩
  · exact ⟨bridge_hidSend s, (bridge_sameRc s).report.trans h.report⟩
  · exact ⟨rcResult_hidSend_of_no_decode hs.not_ready hno,
      (not_imp_comm.mp (rcResult_report_traced hs.not_ready) hno).trans h.report⟩

/-- Every run from a tick boundary completes at one, and without an accepted frame there is still nothing reported. -/
theorem AtBoundary.run_unreported {s : State} (hs : AtBoundary s) (h : Unreported s) : ∀ n,
    ∃ t, run n s = .next t ∧ AtBoundary t ∧ (AcceptsNoFrame s n → Unreported t)
  | 0 => ⟨s, rfl, hs, fun _ => h⟩
  | n + 1 => by
    obtain ⟨u, hrun, hu, hsilent⟩ := hs.run_unreported h n
    obtain ⟨t, hstep⟩ := everyTickCompletes u hu
    have hrun' : run (n + 1) s = .next t := run_succ_of_run hrun hstep
    refine ⟨t, hrun', boundaryInvariantIsKept u t hu hstep, fun hno => ?_⟩
    exact (hsilent (hno.mono n.le_succ)).step hu hstep (hno (n + 1) t n.succ_pos le_rfl hrun')

/-- Settles O29: before its first VSER byte the block is in IDLE, before its first UART byte the attempt is empty, and
only an accepted frame writes or sends a report. -/
theorem firstTickAfterReset : Obligations.FirstTickAfterReset := by
  refine ⟨fun _ _ _ => first_vser_byte_enters, fun _ _ _ => first_uart_byte_is_stored, fun ins n _ => ?_⟩
  obtain ⟨t, hrun, -, hsilent⟩ := (setScript_reset_atBoundary ins).run_unreported ⟨rfl, rfl⟩ n
  exact ⟨t, hrun, fun hno => ⟨(hsilent hno).no_send, (hsilent hno).report⟩⟩

end Sys2Proof.Machine
